-- ==== Sys2Proof/Word.lean ====
section
/-! DEFINITION. The bit-vector types of the block: bytes, 7-bit device addresses and the 64-bit command word
(spec 00_scope R11, 30_encoding R61). -/

namespace Sys2Proof

/-- A byte: 8 bits (R11). -/
abbrev Byte := BitVec 8

/-- A 7-bit I2C device address (R40). -/
abbrev Addr7 := BitVec 7

/-- The command word: one 64-bit value with no byte order (R47, R61). -/
abbrev CmdWord := BitVec 64

end Sys2Proof
end

