-- ==== Sys2Proof/Config.lean ====
section
/-! DEFINITION. The block's configuration, fixed at construction (R6, R7, R9), and the two free values of the
model: the configuration a block is constructed with, and the bus oracle (R84). -/

namespace Sys2Proof

/-- DEV_ADDR: a device address in 0x01..0x7F (R7, R9).  An address 0 has no value of this type, so an ill-formed
configuration has no run (R160, 93 U10).  The field defaults only show that the type is inhabited: no definition
of the model uses them. -/
structure DevAddr where
  addr    : Addr7 := 0x01#7
  nonzero : addr ≠ 0x00#7 := by decide
  deriving DecidableEq, Repr, Inhabited

/-- DUTY_TIE: the tie rule of `round_tie` (R7, R13; 92 D9). -/
inductive Tie where
  | halfEven
  | halfUp
  deriving DecidableEq, Repr, Inhabited

/-- A well-formed configuration (R7, R9): the open parameters, each byte sent unchanged (92 D13). -/
structure Config where
  devAddr    : DevAddr
  mode1Init  : Byte
  mode2Init  : Byte
  mode1Sleep : Byte
  mode1Wake  : Byte
  dutyTie    : Tie
  /-- BUS_TIMING: no rule depends on it (R7, R91); its type is the model's (DESIGN CHOICE, log entry 9). -/
  busTiming  : Nat
  deriving DecidableEq, Repr, Inhabited

/-- The parameters as whoever constructs the block gives them, before the check of R9. -/
structure ConfigParams where
  devAddr    : Nat
  mode1Init  : Nat
  mode2Init  : Nat
  mode1Sleep : Nat
  mode1Wake  : Nat
  dutyTie    : Tie
  busTiming  : Nat
  deriving DecidableEq, Repr, Inhabited

/-- How a bus transaction ended (R85). -/
inductive TxnOutcome where
  /-- Every byte was ACKed and STOP was sent. -/
  | ok
  /-- FAIL(k): byte k was NACKed. -/
  | failAt (k : Nat)
  /-- FAIL(BUS): a failure that is not a NACK. -/
  | failBus
  deriving DecidableEq, Repr, Inhabited

/-- One record of the transaction history (R29). -/
structure Txn where
  addr    : Addr7
  reg     : Byte
  payload : List Byte
  outcome : TxnOutcome
  deriving DecidableEq, Repr, Inhabited

/-- What the bus oracle answers for one byte (R82, R83, R84, R86). -/
inductive BusAnswer where
  /-- The target took the byte. -/
  | ack
  /-- The target did not take the byte. -/
  | nack
  /-- The byte or its acknowledge bit did not complete; the flag says whether the bus then allows STOP (R83). -/
  | err (stopAllowed : Bool)
  /-- The oracle never answers (R86). -/
  | never
  deriving DecidableEq, Repr, Inhabited

/-- FREE VALUE.  The configuration a block is constructed with: open parameters the source gives no value for
(R7).  Nothing constrains it beyond well-formedness (log entry 1). -/
opaque Config.atConstruction : Config

/-- FREE VALUE.  The bus oracle of R84: its answer for byte `k` of a write `(a, r, p)` issued after history
`hist`, in the block's construction number `era`.  Nothing constrains it (log entry 2). -/
opaque Config.busAnswer (era : Nat) (hist : List Txn) (a : Addr7) (r : Byte) (p : List Byte) (k : Nat) : BusAnswer

end Sys2Proof
end

