-- ==== Sys2Proof/Syntax.lean ====
section
/-! DEFINITION. The commands of the block: one constructor per row of spec/opcode_table.json, with the operand
values R62 reads from the command word. -/

namespace Sys2Proof

/-- A command (R63).  Operands are the values of R62: a channel 0..255, signed 32-bit duty, on-cycle and
prescaler values, an unsigned 32-bit frequency, a sleep request. -/
inductive Instr where
  /-- INIT, opcode 0x01 (R93). -/
  | init
  /-- SET_DUTY, opcode 0x02 (R101): the duty is `d / 2^24`. -/
  | setDuty (ch : Nat) (d : Int)
  /-- SET_DUTY_RAW, opcode 0x03 (R104). -/
  | setDutyRaw (ch : Nat) (n : Int)
  /-- SET_FREQ, opcode 0x04 (R115). -/
  | setFreq (hz : Nat)
  /-- SET_PRESCALE_RAW, opcode 0x05 (R120). -/
  | setPrescaleRaw (v : Int)
  /-- SET_SLEEP, opcode 0x06 (R125): `true` requests sleep. -/
  | setSleep (sl : Bool)
  /-- RESET_ALL, opcode 0x07 (R132). -/
  | resetAll
  /-- SHUTDOWN, opcode 0x08 (R136). -/
  | shutdown
  deriving DecidableEq, Repr, Inhabited

/-- The mnemonic of R63. -/
def Instr.mnemonic : Instr → String
  | .init             => "INIT"
  | .setDuty _ _      => "SET_DUTY"
  | .setDutyRaw _ _   => "SET_DUTY_RAW"
  | .setFreq _        => "SET_FREQ"
  | .setPrescaleRaw _ => "SET_PRESCALE_RAW"
  | .setSleep _       => "SET_SLEEP"
  | .resetAll         => "RESET_ALL"
  | .shutdown         => "SHUTDOWN"

end Sys2Proof
end

