-- ==== Sys2Proof/WellFormed.lean ====
section
/-! DEFINITION. The checks a command's operands and a configuration's parameters must pass: the operand ranges of
R62 and the configuration ranges of R9. -/

namespace Sys2Proof

/-- A channel operand fits the unsigned 8-bit CH field (R61, R62). -/
def chInRange (ch : Nat) : Bool := decide (ch < 2 ^ 8)

/-- A signed operand fits the 32-bit OPD field (R12, R62). -/
def sextInRange (v : Int) : Bool := decide (-2 ^ 31 ≤ v) && decide (v < 2 ^ 31)

/-- An unsigned operand fits the 32-bit OPD field (R12, R62). -/
def zextInRange (v : Nat) : Bool := decide (v < 2 ^ 32)

/-- Every operand has an encoding (R62). -/
def Instr.wellFormed : Instr → Bool
  | .init             => true
  | .setDuty ch d     => chInRange ch && sextInRange d
  | .setDutyRaw ch n  => chInRange ch && sextInRange n
  | .setFreq hz       => zextInRange hz
  | .setPrescaleRaw v => sextInRange v
  | .setSleep _       => true
  | .resetAll         => true
  | .shutdown         => true

/-- R9: DEV_ADDR in 0x01..0x7F and each mode constant a byte. -/
def ConfigParams.wellFormed (p : ConfigParams) : Bool :=
  decide (1 ≤ p.devAddr) && decide (p.devAddr ≤ 0x7F) &&
  decide (p.mode1Init ≤ 0xFF) && decide (p.mode2Init ≤ 0xFF) &&
  decide (p.mode1Sleep ≤ 0xFF) && decide (p.mode1Wake ≤ 0xFF)

end Sys2Proof
end

