-- ==== Sys2Proof/Decode.lean ====
section
/-! DEFINITION. Decoding and encoding of the command word (30_encoding R61 to R66): the field readers, the total
decoder that rejects by name, the encoder, and the match/mask table of R64. -/

namespace Sys2Proof

/-- Why a word is illegal: the five bullets of R66.  Every one finishes ILLEGAL_COMMAND. -/
inductive Illegal where
  /-- OPC is 0x00 or in 0x09..0xFF. -/
  | reservedOpcode
  /-- RSV (bits 47:32) is not 0. -/
  | reservedBits
  /-- CH is not 0 for an opcode other than SET_DUTY and SET_DUTY_RAW. -/
  | channelBits
  /-- OPD is not 0 for INIT, RESET_ALL or SHUTDOWN. -/
  | operandBits
  /-- OPD bits 31:1 are not 0 for SET_SLEEP. -/
  | sleepBits
  deriving DecidableEq, Repr

/-- OPC, bits 63:56 (R61). -/
def fieldOpc (w : CmdWord) : BitVec 8 := w.extractLsb' 56 8

/-- CH, bits 55:48 (R61). -/
def fieldCh (w : CmdWord) : BitVec 8 := w.extractLsb' 48 8

/-- RSV, bits 47:32 (R61). -/
def fieldRsv (w : CmdWord) : BitVec 16 := w.extractLsb' 32 16

/-- OPD, bits 31:0 (R61). -/
def fieldOpd (w : CmdWord) : BitVec 32 := w.extractLsb' 0 32

/-- A command that takes no channel: CH must be 0 (R66). -/
def withoutChannel (w : CmdWord) (i : Instr) : Except Illegal Instr :=
  if fieldCh w = 0 then .ok i else .error .channelBits

/-- A command with no operand at all: CH and OPD must be 0 (R66). -/
def withoutOperands (w : CmdWord) (i : Instr) : Except Illegal Instr :=
  if fieldOpd w = 0 then withoutChannel w i else .error .operandBits

/-- SET_SLEEP reads OPD bit 0 and allows no other bit (R62, R66). -/
def decodeSleep (w : CmdWord) : Except Illegal Instr :=
  if fieldOpd w >>> 1 = 0 then withoutChannel w (.setSleep ((fieldOpd w).getLsbD 0)) else .error .sleepBits

/-- The decoder (R65): total on every 64-bit word.  `toInt` is sext_32 and `toNat` is zext (R12, R62). -/
def decode (w : CmdWord) : Except Illegal Instr :=
  if fieldRsv w = 0 then
    match (fieldOpc w).toNat with
    | 0x01 => withoutOperands w .init
    | 0x02 => .ok (.setDuty (fieldCh w).toNat (fieldOpd w).toInt)
    | 0x03 => .ok (.setDutyRaw (fieldCh w).toNat (fieldOpd w).toInt)
    | 0x04 => withoutChannel w (.setFreq (fieldOpd w).toNat)
    | 0x05 => withoutChannel w (.setPrescaleRaw (fieldOpd w).toInt)
    | 0x06 => decodeSleep w
    | 0x07 => withoutOperands w .resetAll
    | 0x08 => withoutOperands w .shutdown
    | _    => .error .reservedOpcode
  else .error .reservedBits

/-- The decoder's instruction, for an opcode-table row's word of `nbits` bits. -/
def decodeTableWord (nbits w : Nat) : Option Instr :=
  match decode (BitVec.ofNat 64 (w % 2 ^ nbits)) with
  | .ok i    => some i
  | .error _ => none

/-- Format F0 (R61): `{OPC, CH, RSV = 0, OPD}`. -/
def wordF0 (opc ch : BitVec 8) (opd : BitVec 32) : CmdWord := opc ++ ch ++ 0x0000#16 ++ opd

/-- The encoder (R61 to R63). -/
def encode : Instr → CmdWord
  | .init             => wordF0 0x01 0 0
  | .setDuty ch d     => wordF0 0x02 (BitVec.ofNat 8 ch) (BitVec.ofInt 32 d)
  | .setDutyRaw ch n  => wordF0 0x03 (BitVec.ofNat 8 ch) (BitVec.ofInt 32 n)
  | .setFreq hz       => wordF0 0x04 0 (BitVec.ofNat 32 hz)
  | .setPrescaleRaw v => wordF0 0x05 0 (BitVec.ofInt 32 v)
  | .setSleep sl      => wordF0 0x06 0 (BitVec.ofNat 32 sl.toNat)
  | .resetAll         => wordF0 0x07 0 0
  | .shutdown         => wordF0 0x08 0 0

/-- One row of the match/mask table of R64. -/
structure OpcodeRow where
  mnemonic : String
  pattern  : CmdWord
  mask     : CmdWord
  deriving DecidableEq, Repr

/-- The table of R64, row by row. -/
def opcodeTable : List OpcodeRow :=
  [ ⟨"INIT",             0x0100000000000000#64, 0xFFFFFFFFFFFFFFFF#64⟩,
    ⟨"SET_DUTY",         0x0200000000000000#64, 0xFF00FFFF00000000#64⟩,
    ⟨"SET_DUTY_RAW",     0x0300000000000000#64, 0xFF00FFFF00000000#64⟩,
    ⟨"SET_FREQ",         0x0400000000000000#64, 0xFFFFFFFF00000000#64⟩,
    ⟨"SET_PRESCALE_RAW", 0x0500000000000000#64, 0xFFFFFFFF00000000#64⟩,
    ⟨"SET_SLEEP",        0x0600000000000000#64, 0xFFFFFFFFFFFFFFFE#64⟩,
    ⟨"RESET_ALL",        0x0700000000000000#64, 0xFFFFFFFFFFFFFFFF#64⟩,
    ⟨"SHUTDOWN",         0x0800000000000000#64, 0xFFFFFFFFFFFFFFFF#64⟩ ]

/-- A word selects a row when `(w & mask) = match` (R64). -/
def OpcodeRow.selects (row : OpcodeRow) (w : CmdWord) : Bool := w &&& row.mask == row.pattern

end Sys2Proof
end

