-- ==== Sys2Proof/Machine/State.lean ====
section
/-! DEFINITION. The block's state (R23), the configuration argument and the outside world's inputs it runs with,
the state after reset (R39), and the reasons a step can stop. -/

namespace Sys2Proof.Machine

/-- `life`: the lifecycle state (R24). -/
inductive Life where
  | uninit
  | ready
  | failed
  | shutdown
  deriving DecidableEq, Repr

/-- `sleeping`: the mirror of the chip's sleep bit (R25): UNKNOWN, TRUE (`asleep`) or FALSE (`awake`). -/
inductive Sleeping where
  | unknown
  | asleep
  | awake
  deriving DecidableEq, Repr

/-- `pin`: the enable pin's drive (R27). -/
inductive Pin where
  | undriven
  | low
  deriving DecidableEq, Repr

/-- What the block puts on the bus, at byte level (R81, R83). -/
inductive WireEvent where
  | start
  /-- A byte whose acknowledge bit completed, as an ACK or a NACK. -/
  | byte (b : Byte)
  /-- A byte that did not complete, or whose acknowledge bit did not: ERR, or never answered (R83, R86; DESIGN CHOICE, log
  entry 7). -/
  | incomplete (b : Byte)
  | stop
  deriving DecidableEq, Repr

/-- What the host does next (R30, R171). -/
inductive HostEvent where
  /-- Presents a command word. -/
  | command (w : CmdWord)
  /-- Resets the block: constructs it anew. -/
  | reset
  deriving DecidableEq, Repr

/-- The block's state.  The first five fields are the record of R23; `cfg` is the configuration argument (R7), which
no step changes; the last four are the model's own account of the block's surroundings (log entries 2, 3, 5 and 6). -/
structure State where
  life     : Life
  sleeping : Sleeping
  pin      : Pin
  /-- Status code of the last command that finished (R28). -/
  status   : BitVec 8
  /-- Every bus transaction issued, oldest first (R29). -/
  hist     : List Txn
  /-- The configuration, fixed at construction (R7). -/
  cfg      : Config
  /-- What the host will do, next first: it presents one command at a time (R30, R175). -/
  inbox    : List HostEvent
  /-- Answers of the bus already settled, next first; past the list's end the free oracle answers (R84). -/
  answers  : List BusAnswer
  /-- What the block has put on the bus since its construction, oldest first (R81). -/
  wire     : List WireEvent
  /-- How many times the block has been reset: it only keeps the oracle's draws apart. -/
  era      : Nat
  deriving DecidableEq, Repr

/-- Why the machine stops. -/
inductive Fault where
  /-- Raised by any command whose transaction the bus never completes: the block is stuck, with no completing step
  (R86).  It carries the state the block hangs in, whose history lacks the unended transaction (log entry 8).  Safe:
  the spec itself gives no completing step. -/
  | busNeverAnswers (s : State)
  deriving DecidableEq, Repr

/-- Why the model gives no run. -/
inductive Refusal where
  /-- Raised by an arm of `exec` that has no meaning yet; no arm of this model raises it.  Safe. -/
  | notModelled (mnemonic : String)
  /-- Raised by `construct` for a configuration that R9 calls ill formed (R160).  Safe: the spec says to refuse it. -/
  | illFormedConfig
  deriving DecidableEq, Repr

/-- What one step answers. -/
abbrev StepResult := Host.Outcome State Fault Refusal

/-- The state after reset (R39, R171), with the free configuration, nothing presented by the host and no answer of
the bus settled. -/
def State.reset : State where
  life     := .uninit
  sleeping := .unknown
  pin      := .undriven
  status   := 0x00#8
  hist     := []
  cfg      := Config.atConstruction
  inbox    := []
  answers  := []
  wire     := []
  era      := 0

/-- `s.status <- v`. -/
def State.setStatus (v : BitVec 8) (s : State) : State := { s with status := v }
/-- `s.life <- v`. -/
def State.setLife (v : Life) (s : State) : State := { s with life := v }
/-- `s.sleeping <- v`. -/
def State.setSleeping (v : Sleeping) (s : State) : State := { s with sleeping := v }
/-- `pin(LOW); s.pin <- LOW` and the like (R14). -/
def State.setPin (v : Pin) (s : State) : State := { s with pin := v }
/-- `s.hist <- s.hist ++ [t]` (R29). -/
def State.record (t : Txn) (s : State) : State := { s with hist := s.hist ++ [t] }
/-- Put events on the bus, and use up `n` of its answers. -/
def State.emit (ws : List WireEvent) (n : Nat) (s : State) : State :=
  { s with wire := s.wire ++ ws, answers := s.answers.drop n }
/-- What the host will do from here on. -/
def State.setInbox (es : List HostEvent) (s : State) : State := { s with inbox := es }

end Sys2Proof.Machine
end

