-- ==== Sys2Proof/Machine/Flags.lean ====
section
/-! DEFINITION. The block has no arithmetic flags (R31).  What carries a command's outcome is here: the status codes
(R151), the lifecycle acceptance table (R154), and the value SET_SLEEP gives the mirror (R126). -/

namespace Sys2Proof.Machine

/-- The seven ways a command finishes (R151). -/
inductive StatusCode where
  | ok
  | outOfRange
  | invalidChannel
  | notSleeping
  | busError
  | illegalCommand
  | badState
  deriving DecidableEq, Repr

/-- The 8-bit code of R151. -/
def StatusCode.code : StatusCode → BitVec 8
  | .ok             => 0x00#8
  | .outOfRange     => 0x01#8
  | .invalidChannel => 0x02#8
  | .notSleeping    => 0x03#8
  | .busError       => 0x04#8
  | .illegalCommand => 0x05#8
  | .badState       => 0x06#8

/-- INIT's row of R154. -/
def acceptsInit : Life → Bool
  | .uninit   => true
  | .ready    => false
  | .failed   => true
  | .shutdown => false

/-- The row of R154 that the six setters share. -/
def acceptsSetter : Life → Bool
  | .uninit   => false
  | .ready    => true
  | .failed   => false
  | .shutdown => false

/-- SHUTDOWN's row of R154. -/
def acceptsShutdown : Life → Bool
  | .uninit   => false
  | .ready    => true
  | .failed   => true
  | .shutdown => false

/-- `accepted(m, life)` (R154). -/
def accepted : Instr → Life → Bool
  | .init             => acceptsInit
  | .setDuty _ _      => acceptsSetter
  | .setDutyRaw _ _   => acceptsSetter
  | .setFreq _        => acceptsSetter
  | .setPrescaleRaw _ => acceptsSetter
  | .setSleep _       => acceptsSetter
  | .resetAll         => acceptsSetter
  | .shutdown         => acceptsShutdown

/-- The mirror after an OK SET_SLEEP (R126). -/
def sleepingOf (sl : Bool) : Sleeping := if sl then .asleep else .awake

/-- The two states of the mode state machine, while the block is READY (R26). -/
inductive Mode where
  | asleep
  | awake
  deriving DecidableEq, Repr

/-- The mode of a state: the pair (`life`, `sleeping`) restricted to READY (R26). -/
def modeOf (s : State) : Option Mode :=
  match s.life, s.sleeping with
  | .ready, .asleep => some .asleep
  | .ready, .awake  => some .awake
  | _, _            => none

end Sys2Proof.Machine
end

