-- ==== Sys2Proof/Machine/Params.lean ====
section
/-! DEFINITION. The fixed parameters of R6 and R8: constants of the block. -/

namespace Sys2Proof.Machine

/-- CHANNEL_COUNT (R6). -/
abbrev channelCount : Nat := 16
/-- PERIOD: cycles per PWM period (R6). -/
abbrev period : Nat := 4096
/-- ON_MAX: the largest encodable on-cycle count (R6). -/
abbrev onMax : Nat := 4095
/-- OSC_HZ (R6). -/
abbrev oscHz : Nat := 25000000
/-- PRESCALE_MIN (R6). -/
abbrev prescaleMin : Int := 3
/-- PRESCALE_MAX (R6). -/
abbrev prescaleMax : Int := 255
/-- REG_MODE1 (R6). -/
abbrev regMode1 : Byte := 0x00#8
/-- REG_MODE2 (R6). -/
abbrev regMode2 : Byte := 0x01#8
/-- REG_PRESCALE (R6). -/
abbrev regPrescale : Byte := 0xFE#8
/-- REG_LED_BASE: register address of channel 0's first byte (R6). -/
abbrev regLedBase : Nat := 0x06
/-- CHANNEL_STRIDE (R6). -/
abbrev channelStride : Nat := 4
/-- RESET_ADDR: device address of the broadcast reset (R6). -/
abbrev resetAddr : Addr7 := 0x00#7
/-- RESET_REG: register byte of the broadcast reset (R6). -/
abbrev resetReg : Byte := 0x06#8
/-- ONE_Q = 2^24: the encoding of duty 1.0, with DUTY_FRAC_BITS = 24 (R8). -/
abbrev oneQ : Int := 16777216

end Sys2Proof.Machine
end

