-- ==== Sys2Proof/Machine/Operands.lean ====
section
/-! DEFINITION. What the commands compute from their operands: rounding (R13), the duty conversion and clamp (R102,
R105), the channel register and payload (R33, R45), the prescale (R116), and the bytes of a transaction (R81). -/

namespace Sys2Proof.Machine

/-- `u8(n)`: n mod 256 as a byte (R12). -/
def u8 (n : Nat) : Byte := BitVec.ofNat 8 n

/-- `round_tie(num / den)` for `den > 0` (R13): the nearest integer, a tie going to the even one or the greater. -/
def roundDiv (tie : Tie) (num : Int) (den : Nat) : Int :=
  let q := num / (den : Int)
  let r := num % (den : Int)
  if 2 * r < den then q
  else if (den : Int) < 2 * r then q + 1
  else match tie with
    | .halfEven => if q % 2 = 0 then q else q + 1
    | .halfUp   => q + 1

/-- `round_ne(num / den)` (R13). -/
def roundNe (num : Int) (den : Nat) : Int := roundDiv .halfEven num den

/-- The on-cycle count of duty `d / 2^24`: `round_tie(d / 2^12)` (R102). -/
def onCyclesOf (tie : Tie) (d : Int) : Int := roundDiv tie d 4096

/-- The single clamp point: `c = min(n, 4095)`, for `n >= 0` (R105, R106). -/
def clampOn (n : Int) : Nat := min n.toNat onMax

/-- Register address of a channel's first byte: `0x06 + 4*ch` (R33). -/
def channelReg (ch : Nat) : Byte := u8 (regLedBase + channelStride * ch)

/-- A channel's payload `[on_low, on_high, off_low, off_high] = [0, 0, c[7:0], c[15:8]]` (R45). -/
def channelPayload (c : Nat) : List Byte := [0x00#8, 0x00#8, u8 c, u8 (c / 256)]

/-- `round_ne(25_000_000 / (4096 * hz)) - 1`, for `hz > 0` (R116). -/
def prescaleOf (hz : Nat) : Int := roundNe oscHz (period * hz) - 1

/-- Byte 0 of a transaction: `(a << 1) | 0` (R81). -/
def addressByte (a : Addr7) : Byte := a ++ 0#1

/-- The bytes of a transaction between START and STOP (R81). -/
def frameBytes (a : Addr7) (r : Byte) (p : List Byte) : List Byte := addressByte a :: r :: p

end Sys2Proof.Machine
end

