-- ==== Sys2Proof/Machine/Ops.lean ====
section
/-! DEFINITION. The shared operations: finishing a command and raising an error (R14, R151), lifecycle acceptance
(R154), the bus write primitive (R80 to R88), and the block's reset and construction (R9, R171). -/

namespace Sys2Proof.Machine

/-- `finish(code)`: end the command and store its status (R14, R28). -/
def finish (c : StatusCode) (s : State) : StepResult := .next (s.setStatus c.code)

/-- `raise E`: the block's only form of an exception.  There is no trap entry: the command ends with its status and
nothing else is saved or changed (R14, R158).  There is no return from it either (R159). -/
def raise (c : StatusCode) (s : State) : StepResult := finish c s

/-- `if not accepted(m, s.life): finish(BAD_STATE)`, else the command's own rule (R67, R154). -/
def ifAccepted (i : Instr) (body : State → StepResult) (s : State) : StepResult :=
  if accepted i s.life then body s else raise .badState s

/-- What happened to one transaction: how it ended (`none`: it never ends), what went out on the bus, and how many
of the bus's answers it used. -/
structure Transfer where
  outcome : Option TxnOutcome
  wire    : List WireEvent
  used    : Nat
  deriving DecidableEq, Repr

/-- The bus's answer for byte `k` of the write `(a, r, p)`: the settled one if there is one, else the free oracle's
(R83, R84). -/
def State.answerAt (s : State) (a : Addr7) (r : Byte) (p : List Byte) (k : Nat) : BusAnswer :=
  (s.answers[k]?).getD (Config.busAnswer s.era s.hist a r p k)

/-- The loop of R83 from byte `k` on: each byte is sent, then answered; the first answer that is not an ACK ends it. -/
def sendFrom (ans : Nat → BusAnswer) : List Byte → Nat → Transfer
  | [],      k => ⟨some .ok, [.stop], k⟩
  | b :: bs, k =>
    match ans k with
    | .ack      =>
      let t := sendFrom ans bs (k + 1)
      ⟨t.outcome, .byte b :: t.wire, t.used⟩
    | .nack     => ⟨some (.failAt k), [.byte b, .stop], k + 1⟩
    | .err stop => ⟨some .failBus, .incomplete b :: (if stop then [.stop] else []), k + 1⟩
    | .never    => ⟨none, [.incomplete b], k + 1⟩

/-- One whole transaction, from START on (R81, R83). -/
def transfer (a : Addr7) (r : Byte) (p : List Byte) (s : State) : Transfer :=
  let t := sendFrom (s.answerAt a r p) (frameBytes a r p) 0
  ⟨t.outcome, .start :: t.wire, t.used⟩

/-- What `BusWrite` returns to its caller (R80), and the case in which it never returns (R86). -/
inductive BusResult where
  | ok
  | fail
  | stuck
  deriving DecidableEq, Repr

/-- A transaction's result for its caller: the kinds of FAIL are not told apart (R85). -/
def resultOf : TxnOutcome → BusResult
  | .ok       => .ok
  | .failAt _ => .fail
  | .failBus  => .fail

/-- `BusWrite(a, r, p)` (R80, R83): one write transaction; its record is appended when it ends. -/
def busWrite (a : Addr7) (r : Byte) (p : List Byte) (s : State) : BusResult × State :=
  let t := transfer a r p s
  match t.outcome with
  | some o => (resultOf o, (s.emit t.wire t.used).record ⟨a, r, p, o⟩)
  | none   => (.stuck, s.emit t.wire t.used)

/-- `if BusWrite(a, r, p) = FAIL: onFail`, else `onOk`; a transaction that never ends leaves the block stuck (R86,
R87). -/
def busWriteThen (a : Addr7) (r : Byte) (p : List Byte) (onOk onFail : State → StepResult) (s : State) : StepResult :=
  match busWrite a r p s with
  | (.ok, t)    => onOk t
  | (.fail, t)  => onFail t
  | (.stuck, t) => .fault (.busNeverAnswers t)

/-- The setters' tail: one write, then OK or BUS_ERROR (R51, R105, R121, R133). -/
def writeAndFinish (a : Addr7) (r : Byte) (p : List Byte) (s : State) : StepResult :=
  busWriteThen a r p (finish .ok) (raise .busError) s

/-- `cfg.DEV_ADDR` as the 7-bit address of a write. -/
def State.dev (s : State) : Addr7 := s.cfg.devAddr.addr

/-- A word that `decode` rejects: ILLEGAL_COMMAND, no transaction, no field but `status` (R66). -/
def illegalCommand (s : State) : StepResult := raise .illegalCommand s

/-- The block's own reset (R39, R171, R172): the reset values, with the configuration kept; the host's later events
and the bus's settled answers are not the block's to reset (DESIGN CHOICE, log entry 5). -/
def State.restart (s : State) : State :=
  { State.reset with cfg := s.cfg, inbox := s.inbox, answers := s.answers, era := s.era + 1 }

/-- A nonzero number below 128 is a nonzero 7-bit address. -/
theorem ofNat7_ne_zero {n : Nat} (h1 : 1 ≤ n) (h2 : n ≤ 0x7F) : BitVec.ofNat 7 n ≠ 0x00#7 := by
  intro h
  have := congrArg BitVec.toNat h
  simp [BitVec.toNat_ofNat] at this
  omega

/-- The configuration of given parameters, if R9 calls them well formed. -/
def configOf (p : ConfigParams) : Option Config :=
  if h : p.wellFormed = true then
    some {
      devAddr    := ⟨BitVec.ofNat 7 p.devAddr, by
        simp only [ConfigParams.wellFormed, Bool.and_eq_true, decide_eq_true_eq] at h
        exact ofNat7_ne_zero h.1.1.1.1.1 h.1.1.1.1.2⟩
      mode1Init  := u8 p.mode1Init
      mode2Init  := u8 p.mode2Init
      mode1Sleep := u8 p.mode1Sleep
      mode1Wake  := u8 p.mode1Wake
      dutyTie    := p.dutyTie
      busTiming  := p.busTiming }
  else none

/-- Constructing a block (R171): reset with the given configuration; an ill-formed one is refused (R9, R160). -/
def construct (p : ConfigParams) : StepResult :=
  match configOf p with
  | some c => .next { State.reset with cfg := c }
  | none   => .refused .illFormedConfig

end Sys2Proof.Machine
end

