-- ==== Sys2Proof/Machine/Duty.lean ====
section
/-! DEFINITION. SET_DUTY and SET_DUTY_RAW (42_duty.md R101 to R109). -/

namespace Sys2Proof.Machine

/-- `SetDutyRaw(s, ch, n)` (R105), also run by SET_DUTY. -/
def setDutyRaw (ch : Nat) (n : Int) (s : State) : StepResult :=
  if channelCount ≤ ch then raise .invalidChannel s
  else if n < 0 then raise .outOfRange s
  else writeAndFinish s.dev (channelReg ch) (channelPayload (clampOn n)) s

/-- `SetDuty(s, ch, d)` (R102). -/
def setDuty (ch : Nat) (d : Int) (s : State) : StepResult :=
  if d < 0 ∨ oneQ < d then raise .outOfRange s
  else setDutyRaw ch (onCyclesOf s.cfg.dutyTie d) s

/-- SET_DUTY (R101). -/
def execSetDuty (ch : Nat) (d : Int) (s : State) : StepResult := ifAccepted (.setDuty ch d) (setDuty ch d) s

/-- SET_DUTY_RAW (R104). -/
def execSetDutyRaw (ch : Nat) (n : Int) (s : State) : StepResult := ifAccepted (.setDutyRaw ch n) (setDutyRaw ch n) s

end Sys2Proof.Machine
end

