-- ==== Sys2Proof/Machine/Init.lean ====
section
/-! DEFINITION. INIT (41_init.md R93 to R99). -/

namespace Sys2Proof.Machine

/-- T0 to T17 of R94, as register byte and payload: MODE1, MODE2, then channels 0 to 15 at duty 0. -/
def initWrites (c : Config) : List (Byte × List Byte) :=
  (regMode1, [c.mode1Init]) :: (regMode2, [c.mode2Init]) ::
    (List.range channelCount).map fun n => (channelReg n, channelPayload 0)

/-- `InitFail` (R94). -/
def initFail (s : State) : StepResult := raise .busError (s.setLife .failed)

/-- The end of a successful INIT (R94, R95): the pin, the mirror, the lifecycle state, OK. -/
def initDone (s : State) : StepResult :=
  finish .ok (((s.setPin .low).setSleeping .asleep).setLife .ready)

/-- The sequence: each write in order; the first FAIL ends it (R94, R96). -/
def initSequence : List (Byte × List Byte) → State → StepResult
  | [],           s => initDone s
  | (r, p) :: ws, s => busWriteThen s.dev r p (initSequence ws) initFail s

/-- INIT (R93, R94). -/
def execInit (s : State) : StepResult := ifAccepted .init (fun s => initSequence (initWrites s.cfg) s) s

end Sys2Proof.Machine
end

