-- ==== Sys2Proof/Machine/Lifecycle.lean ====
section
/-! DEFINITION. RESET_ALL and SHUTDOWN (44_reset_shutdown.md R132 to R139). -/

namespace Sys2Proof.Machine

/-- `ResetAll(s)` (R133): the broadcast reset, to device address 0 and never to DEV_ADDR. -/
def resetAll (s : State) : StepResult := writeAndFinish resetAddr resetReg [] s

/-- `Shutdown(s)` (R137): the lifecycle ends whatever the bus answers; the mirror changes on OK only. -/
def shutdown (s : State) : StepResult :=
  busWriteThen s.dev regMode1 [s.cfg.mode1Sleep]
    (fun t => finish .ok ((t.setLife .shutdown).setSleeping .asleep))
    (fun t => raise .busError (t.setLife .shutdown)) s

/-- RESET_ALL (R132). -/
def execResetAll (s : State) : StepResult := ifAccepted .resetAll resetAll s

/-- SHUTDOWN (R136). -/
def execShutdown (s : State) : StepResult := ifAccepted .shutdown shutdown s

end Sys2Proof.Machine
end

