-- ==== Sys2Proof/Machine/Timing.lean ====
section
/-! DEFINITION. SET_FREQ, SET_PRESCALE_RAW and SET_SLEEP (43_timing_mode.md R115 to R129). -/

namespace Sys2Proof.Machine

/-- `SetPrescaleRaw(s, v)` (R121), also run by SET_FREQ.  The range is checked before any narrowing (92 D12). -/
def setPrescaleRaw (v : Int) (s : State) : StepResult :=
  if s.sleeping ≠ .asleep then raise .notSleeping s
  else if v < prescaleMin ∨ prescaleMax < v then raise .outOfRange s
  else writeAndFinish s.dev regPrescale [u8 v.toNat] s

/-- `SetFreq(s, hz)` (R116): hz = 0 is checked before the sleep gate (92 D11). -/
def setFreq (hz : Nat) (s : State) : StepResult :=
  if hz = 0 then raise .outOfRange s
  else setPrescaleRaw (prescaleOf hz) s

/-- The byte SET_SLEEP writes to MODE1: a whole configuration constant (R126, R127). -/
def sleepByte (sl : Bool) (c : Config) : Byte := if sl then c.mode1Sleep else c.mode1Wake

/-- `SetSleep(s, sl)` (R126): the mirror changes only on OK (R128). -/
def setSleep (sl : Bool) (s : State) : StepResult :=
  busWriteThen s.dev regMode1 [sleepByte sl s.cfg]
    (fun t => finish .ok (t.setSleeping (sleepingOf sl))) (raise .busError) s

/-- SET_FREQ (R115). -/
def execSetFreq (hz : Nat) (s : State) : StepResult := ifAccepted (.setFreq hz) (setFreq hz) s

/-- SET_PRESCALE_RAW (R120). -/
def execSetPrescaleRaw (v : Int) (s : State) : StepResult := ifAccepted (.setPrescaleRaw v) (setPrescaleRaw v) s

/-- SET_SLEEP (R125). -/
def execSetSleep (sl : Bool) (s : State) : StepResult := ifAccepted (.setSleep sl) (setSleep sl) s

end Sys2Proof.Machine
end

