-- ==== Sys2Proof/Machine/Dispatch.lean ====
section
/-! DEFINITION. The dispatch of R67: one arm per command. -/

namespace Sys2Proof.Machine

def exec (i : Instr) (s : State) : Host.Outcome State Fault Refusal :=
  match i with
  | .init => Sys2Proof.Machine.execInit s
  | .setDuty ch d => Sys2Proof.Machine.execSetDuty ch d s
  | .setDutyRaw ch n => Sys2Proof.Machine.execSetDutyRaw ch n s
  | .setFreq hz => Sys2Proof.Machine.execSetFreq hz s
  | .setPrescaleRaw v => Sys2Proof.Machine.execSetPrescaleRaw v s
  | .setSleep sl => Sys2Proof.Machine.execSetSleep sl s
  | .resetAll => Sys2Proof.Machine.execResetAll s
  | .shutdown => Sys2Proof.Machine.execShutdown s

end Sys2Proof.Machine
end

