-- ==== Sys2Proof/Machine/Step.lean ====
section
/-! DEFINITION. One step of the machine: the host's next event, and R67's `Execute` for a presented word. -/

namespace Sys2Proof.Machine

/-- `Execute(s, w)` (R67). -/
def execute (w : CmdWord) (s : State) : StepResult :=
  match decode w with
  | .ok i    => exec i s
  | .error _ => illegalCommand s

/-- One step: the host presents a word and the block runs it to `finish` (R30), or the host resets the block (R171).
With nothing presented the block waits (DESIGN CHOICE, log entry 3). -/
def step (s : State) : Host.Outcome State Fault Refusal :=
  match s.inbox with
  | []              => .next s
  | .command w :: r => execute w (s.setInbox r)
  | .reset :: r     => .next (s.setInbox r).restart

/-- How many bytes INIT, the longest command, sends: 2 × 3 + 16 × 6 (R184). -/
def longestCommandBytes : Nat := 102

/-- `s` with the word presented next by the host, ahead of what the host does later.  A run pairs each command with
the bus's answers (R175): behind the answers `s` already settles stand enough ACKs for the command to end, so that the
very next step runs it (log entry 4). -/
def State.withFetchWord (s : State) (nbits w : Nat) : State :=
  { s with
    inbox   := .command (BitVec.ofNat 64 (w % 2 ^ nbits)) :: s.inbox
    answers := s.answers ++ List.replicate longestCommandBytes .ack }

/-- A sequence of commands presented one after the other, each after the one before it has finished (R30, R175). -/
def executeAll : List CmdWord → State → StepResult
  | [],      s => .next s
  | w :: ws, s =>
    match execute w s with
    | .next t    => executeAll ws t
    | .fault r   => .fault r
    | .refused r => .refused r

end Sys2Proof.Machine
end

