-- ==== Sys2Proof/Machine/Servo.lean ====
section
/-! DEFINITION. The host-side servo layer, outside the block: the commands the reference host issues and the exact
rational arithmetic behind them (45_host_servo.md R141 to R147). -/

namespace Sys2Proof.Machine

/-- The host's configuration (R141); the reference deployment has channel 1 and `bounds_degrees` 20 (R142). -/
structure ServoConfig where
  channel       : Nat
  boundsDegrees : Rat
  deriving DecidableEq, Repr

/-- The reference deployment (R141, R142). -/
def ServoConfig.reference : ServoConfig := ⟨1, 20⟩

/-- `min_angle` (R142). -/
def ServoConfig.minAngle (c : ServoConfig) : Rat := c.boundsDegrees
/-- `max_angle` (R142). -/
def ServoConfig.maxAngle (c : ServoConfig) : Rat := 180 - c.boundsDegrees
/-- `angle_range` (R142). -/
def ServoConfig.angleRange (c : ServoConfig) : Rat := c.maxAngle - c.minAngle

/-- `round_ne` on a rational (R13). -/
def roundNeRat (x : Rat) : Int := roundNe x.num x.den

/-- `duty = (angle × 10 / 180 + 2.5) / 100` (R143). -/
def servoDuty (angle : Rat) : Rat := (angle * 10 / 180 + 5 / 2) / 100

/-- `clamp_int32`: saturates to -2^31..2^31-1 (R143). -/
def clampInt32 (x : Int) : Int := max (-2 ^ 31) (min x (2 ^ 31 - 1))

/-- The SET_DUTY operand of a real duty: `q = clamp_int32(round_ne(duty × 2^24))` (R143). -/
def dutyOperand (duty : Rat) : Int := clampInt32 (roundNeRat (duty * 16777216))

/-- `set_servo_angle(angle)`: the command the host issues (R143). -/
def setServoAngle (c : ServoConfig) (angle : Rat) : Instr := .setDuty c.channel (dutyOperand (servoDuty angle))

/-- The angle of a servo percent: `round_ne((1 − fraction) × angle_range) + min_angle` (R144). -/
def percentAngle (c : ServoConfig) (fraction : Rat) : Rat :=
  (roundNeRat ((1 - fraction) * c.angleRange) : Rat) + c.minAngle

/-- `set_servo_percent(fraction)`: the command the host issues (R144). -/
def setServoPercent (c : ServoConfig) (fraction : Rat) : Instr := setServoAngle c (percentAngle c fraction)

/-- The bring-up after reset (R146). -/
def bringUp : List Instr := [.init, .setFreq 50, .setSleep false]

/-- The teardown on every exit path (R147). -/
def tearDown : List Instr := [.shutdown]

end Sys2Proof.Machine
end

