-- ==== Sys2Proof/Machine/Asm.lean ====
section
/-! DEFINITION. The assembler of R68 and R69: lines of text to assembly statements, and those to command words
(what R68 leaves open of the text: DESIGN CHOICE, log entry 12). -/

namespace Sys2Proof.Machine

/-- An assembly statement: the commands of R68, the pseudo-instructions of R69, and `.word64`. -/
inductive Asm where
  | init
  | setDuty (ch q : Int)
  | setDutyRaw (ch n : Int)
  | setFreq (hz : Int)
  | setPrescaleRaw (v : Int)
  | setSleep (sl : Int)
  | resetAll
  | shutdown
  | sleep
  | wake
  | zero (ch : Int)
  | setDutyF (ch : Int) (x : Rat)
  | word64 (w : Int)
  deriving DecidableEq, Repr

/-- A 32-bit pattern or a signed value, as the signed value it encodes (R68); anything else is an assembly error. -/
def patternOrSigned (q : Int) : Option Int :=
  if -2 ^ 31 ≤ q ∧ q < 2 ^ 31 then some q
  else if 2 ^ 31 ≤ q ∧ q < 2 ^ 32 then some (q - 2 ^ 32)
  else none

/-- A natural-number operand; a negative literal is an assembly error. -/
def natural (n : Int) : Option Nat := if 0 ≤ n then some n.toNat else none

/-- The word of a command whose operands are in range; otherwise an assembly error (R68). -/
def encodeChecked (i : Instr) : Option CmdWord := if i.wellFormed then some (encode i) else none

/-- One statement's word, or `none` for an assembly error (R68, R69). -/
def assemble : Asm → Option CmdWord
  | .init             => encodeChecked .init
  | .setDuty ch q     => do encodeChecked (.setDuty (← natural ch) (← patternOrSigned q))
  | .setDutyRaw ch n  => do encodeChecked (.setDutyRaw (← natural ch) n)
  | .setFreq hz       => do encodeChecked (.setFreq (← natural hz))
  | .setPrescaleRaw v => encodeChecked (.setPrescaleRaw v)
  | .setSleep sl      => if sl = 0 then encodeChecked (.setSleep false)
                         else if sl = 1 then encodeChecked (.setSleep true) else none
  | .resetAll         => encodeChecked .resetAll
  | .shutdown         => encodeChecked .shutdown
  | .sleep            => encodeChecked (.setSleep true)
  | .wake             => encodeChecked (.setSleep false)
  | .zero ch          => do encodeChecked (.setDutyRaw (← natural ch) 0)
  | .setDutyF ch x    => do encodeChecked (.setDuty (← natural ch) (roundNeRat (x * 16777216)))
  | .word64 w         => if 0 ≤ w ∧ w < 2 ^ 64 then some (BitVec.ofInt 64 w) else none

/-- A digit of the given base. -/
def digit (base : Nat) (c : Char) : Option Nat :=
  let v := if '0' ≤ c ∧ c ≤ '9' then c.toNat - 48
    else if 'a' ≤ c ∧ c ≤ 'f' then c.toNat - 87
    else if 'A' ≤ c ∧ c ≤ 'F' then c.toNat - 55
    else base
  if v < base then some v else none

/-- The value of digits read after `acc`. -/
def digitsFrom (base : Nat) : Nat → List Char → Option Nat
  | acc, []      => some acc
  | acc, c :: cs => do digitsFrom base (acc * base + (← digit base c)) cs

/-- One or more digits. -/
def digits (base : Nat) : List Char → Option Nat
  | [] => none
  | cs => digitsFrom base 0 cs

/-- A number (R68): decimal with an optional leading `-`, or `0x` hexadecimal. -/
def number : List Char → Option Int
  | '0' :: 'x' :: cs => (digits 16 cs).map Int.ofNat
  | '-' :: cs        => (digits 10 cs).map fun n => -(n : Int)
  | cs               => (digits 10 cs).map Int.ofNat

/-- An unsigned decimal fraction: digits, and perhaps a point and more digits. -/
def unsignedFraction (cs : List Char) : Option Rat :=
  match cs.span (· ≠ '.') with
  | (whole, [])          => (digits 10 whole).map fun n => (n : Rat)
  | (whole, _ :: places) => do
    let w ← digits 10 whole
    let p ← digits 10 places
    some ((w : Rat) + (p : Rat) / (10 ^ places.length : Nat))

/-- A decimal fraction (R69), optionally negative. -/
def fraction : List Char → Option Rat
  | '-' :: cs => (unsignedFraction cs).map fun x => -x
  | cs        => unsignedFraction cs

/-- A space or a tab. -/
def isBlank (c : Char) : Bool := c == ' ' || c == '\t'

/-- A text without blanks at its ends. -/
def trim (cs : List Char) : List Char := ((cs.dropWhile isBlank).reverse.dropWhile isBlank).reverse

/-- A text cut at its commas, each part trimmed. -/
def commaParts : List Char → List Char → List (List Char)
  | acc, []      => [trim acc.reverse]
  | acc, c :: cs => if c = ',' then trim acc.reverse :: commaParts [] cs else commaParts (c :: acc) cs

/-- The operands after a mnemonic. -/
def operands (cs : List Char) : List (List Char) := if trim cs = [] then [] else commaParts [] cs

/-- A statement from its mnemonic and operand texts (R68, R69). -/
def statementOf (name : String) (ops : List (List Char)) : Option Asm :=
  match name, ops with
  | "INIT", []              => some .init
  | "SET_DUTY", [a, b]      => do some (.setDuty (← number a) (← number b))
  | "SET_DUTY_RAW", [a, b]  => do some (.setDutyRaw (← number a) (← number b))
  | "SET_FREQ", [a]         => do some (.setFreq (← number a))
  | "SET_PRESCALE_RAW", [a] => do some (.setPrescaleRaw (← number a))
  | "SET_SLEEP", [a]        => do some (.setSleep (← number a))
  | "RESET_ALL", []         => some .resetAll
  | "SHUTDOWN", []          => some .shutdown
  | "SLEEP", []             => some .sleep
  | "WAKE", []              => some .wake
  | "ZERO", [a]             => do some (.zero (← number a))
  | "SET_DUTY_F", [a, b]    => do some (.setDutyF (← number a) (← fraction b))
  | ".word64", [a]          => do some (.word64 (← number a))
  | _, _                    => none

/-- One line (R68): `none` is a syntax error, `some none` a line that holds no statement.  `;` starts a comment. -/
def parseLine (line : String) : Option (Option Asm) :=
  let text := trim (line.toList.takeWhile (· ≠ ';'))
  if text = [] then some none
  else match text.span (fun c => !isBlank c) with
    | (name, rest) => (statementOf (String.ofList name) (operands rest)).map some

/-- A program's words, line by line; `none` is an assembly error. -/
def assembleLines : List String → Option (List CmdWord)
  | []            => some []
  | line :: lines => do
    match ← parseLine line with
    | none   => assembleLines lines
    | some a => return (← assemble a) :: (← assembleLines lines)

end Sys2Proof.Machine
end

