-- ==== Sys2Proof/Machine/View.lean ====
section
/-! DEFINITION. Views derived from the history, none of them state: the intended register image and a channel's
on-cycles (R37, R38), and what may be known of a chip register (R88, R134, R179; log entries 11 and 17 to 21). -/

namespace Sys2Proof.Machine

/-- The byte a write puts at register address `r`, if it covers `r`: byte `bi` of the payload goes to `r0 + i` (R37).
A byte that would run past 0xFF goes to no register: R41 leaves that open, and no command sends one (DESIGN CHOICE, log
entry 21). -/
def byteAt (t : Txn) (r : Byte) : Option Byte :=
  if t.reg.toNat ≤ r.toNat then t.payload[r.toNat - t.reg.toNat]? else none

/-- One record's effect on the image at `r`: only an OK transaction to the device that covers `r` has one (R37). -/
def imageStep (dev : Addr7) (r : Byte) (old : Option Byte) (t : Txn) : Option Byte :=
  if t.addr = dev ∧ t.outcome = .ok then (byteAt t r).or old else old

/-- `image(hist, r)` for device `dev`: `none` is UNWRITTEN (R37). -/
def image (dev : Addr7) (hist : List Txn) (r : Byte) : Option Byte := hist.foldl (imageStep dev r) none

/-- The register at offset `k` from channel `n`'s base (R33). -/
def channelRegAt (n k : Nat) : Byte := BitVec.ofNat 8 (regLedBase + channelStride * n + k)

/-- `on_image(hist, n) = {image(+3), image(+2)}`, when both bytes are written (R38). -/
def onImage (dev : Addr7) (hist : List Txn) (n : Nat) : Option Nat :=
  match image dev hist (channelRegAt n 3), image dev hist (channelRegAt n 2) with
  | some hi, some lo => some (hi.toNat * 256 + lo.toNat)
  | _, _             => none

/-- What may be known of a chip register: nothing, or that it holds one of some bytes. -/
inductive RegKnowledge where
  | unknown
  | oneOf (bs : List Byte)
  deriving DecidableEq, Repr

/-- The register may have taken a further byte (R88). -/
def RegKnowledge.orByte (b : Byte) : RegKnowledge → RegKnowledge
  | .unknown  => .unknown
  | .oneOf bs => .oneOf (if b ∈ bs then bs else b :: bs)

/-- The broadcast reset that some target took (R89, R134). -/
def isBroadcastReset (t : Txn) : Bool := t.addr == resetAddr && t.reg == resetReg && t.payload == [] && t.outcome == .ok

/-- What the history says of the chip: whether its auto-increment addressing is known to be on, and what one register
may hold. -/
structure ChipView where
  autoIncrement : Bool
  register      : RegKnowledge
  deriving DecidableEq, Repr

/-- An OK write of MODE1: every constant the block writes there asserts auto-increment (R7, R34). -/
def writesMode1 (dev : Addr7) (t : Txn) : Bool := t.addr == dev && t.reg == regMode1 && t.payload != [] && t.outcome == .ok

/-- One record's effect on auto-increment: an OK broadcast reset may turn it off, an OK write of MODE1 turns it on again
(R179; DEDUCED, log entry 19). -/
def autoIncrementStep (dev : Addr7) (on : Bool) (t : Txn) : Bool := !isBroadcastReset t && (on || writesMode1 dev t)

/-- The chip's auto-increment addressing is known to be on: an OK write of MODE1 came after the last OK broadcast reset,
if there was one (R37, R179). -/
def autoIncrement (dev : Addr7) (hist : List Txn) : Bool := hist.foldl (autoIncrementStep dev) false

/-- A write that puts `b` at a register: a FAIL leaves the register old or new (R88); an OK write makes it known, but for
a payload of several bytes only while auto-increment is on, since otherwise it does not land in successive registers
(R179; DEDUCED, log entry 19).  The bytes of an OK write are shown as held from the end of its transaction on, although
the spec names no moment at which the chip applies them (R37, R50, 91 N8; DESIGN CHOICE, log entry 20). -/
def afterWrite (on : Bool) (t : Txn) (b : Byte) (k : RegKnowledge) : RegKnowledge :=
  if t.outcome ≠ .ok then k.orByte b
  else if on = true ∨ t.payload.length ≤ 1 then .oneOf [b]
  else .unknown

/-- What one record teaches of register `r` of device `dev`: an OK broadcast reset leaves it unknown (R134), a write that
covers it has the effect of `afterWrite`, any other record none (DEDUCED for a broadcast reset that FAILs, log
entry 10).  A record that puts the chip to sleep costs no knowledge: R167 leaves open whether registers survive sleep, and
the view shows what the writes alone leave (DESIGN CHOICE, log entry 18). -/
def learnRegister (dev : Addr7) (r : Byte) (on : Bool) (k : RegKnowledge) (t : Txn) : RegKnowledge :=
  if isBroadcastReset t then .unknown
  else if t.addr = dev then
    match byteAt t r with
    | none   => k
    | some b => afterWrite on t b k
  else k

/-- What one record teaches of the chip. -/
def learn (dev : Addr7) (r : Byte) (v : ChipView) (t : Txn) : ChipView :=
  ⟨autoIncrementStep dev v.autoIncrement t, learnRegister dev r v.autoIncrement v.register t⟩

/-- What the history says the chip register may hold by the block's writes; nothing before the block first writes it
(93 U8).  A transaction that never ends has no record, so in a hung state the registers it covers are shown as before
it, although bytes it had ACKed may be stored: R88 speaks of FAIL only (DESIGN CHOICE, log entry 17). -/
def chipRegister (dev : Addr7) (hist : List Txn) (r : Byte) : RegKnowledge :=
  (hist.foldl (learn dev r) ⟨false, .unknown⟩).register

end Sys2Proof.Machine
end

