-- ==== Sys2Proof/Safety.lean ====
section
/-! DEFINITION. The terms claims are stated in: how the bus may end a transaction and the state each ending leaves
(R83 to R86), the forms a record may have (R71), the invariant of the block's state, and a run that ends properly
(R175). -/

namespace Sys2Proof.Machine

/-- The ways a transaction may go, said of the bus's answers alone (R84 to R86). -/
inductive BusEnding where
  /-- Every byte is ACKed. -/
  | acked
  /-- Byte `k` is the first not ACKed, and is NACKed. -/
  | nackAt (k : Nat)
  /-- Byte `k` is the first not ACKed, and its answer is ERR. -/
  | errAt (k : Nat) (stopAllowed : Bool)
  /-- Byte `k` is the first not ACKed, and is never answered. -/
  | hangsAt (k : Nat)
  deriving DecidableEq, Repr

/-- All answers before byte `k` of the write are ACKs. -/
def AckedBefore (k : Nat) (a : Addr7) (r : Byte) (p : List Byte) (s : State) : Prop :=
  ∀ j < k, s.answerAt a r p j = .ack

/-- The bus's answers in `s` to the write `(a, r, p)` are those of this ending; the write has `2 + len(p)` bytes. -/
def BusEnding.Happens : BusEnding → Addr7 → Byte → List Byte → State → Prop
  | .acked,        a, r, p, s => AckedBefore (2 + p.length) a r p s
  | .nackAt k,     a, r, p, s => k < 2 + p.length ∧ AckedBefore k a r p s ∧ s.answerAt a r p k = .nack
  | .errAt k stop, a, r, p, s => k < 2 + p.length ∧ AckedBefore k a r p s ∧ s.answerAt a r p k = .err stop
  | .hangsAt k,    a, r, p, s => k < 2 + p.length ∧ AckedBefore k a r p s ∧ s.answerAt a r p k = .never

/-- The outcome of R85, `none` for a transaction that never ends. -/
def BusEnding.outcome : BusEnding → Option TxnOutcome
  | .acked      => some .ok
  | .nackAt k   => some (.failAt k)
  | .errAt _ _  => some .failBus
  | .hangsAt _  => none

/-- The first `k` bytes of a transaction, put on the bus after START. -/
def sentBytes (k : Nat) (a : Addr7) (r : Byte) (p : List Byte) : List WireEvent :=
  .start :: ((frameBytes a r p).take k).map .byte

/-- The byte `k` of a transaction, cut off. -/
def cutByte (k : Nat) (a : Addr7) (r : Byte) (p : List Byte) : List WireEvent :=
  ((frameBytes a r p).drop k).head?.toList.map .incomplete

/-- What goes out on the bus (R81, R83). -/
def BusEnding.wire : BusEnding → Addr7 → Byte → List Byte → List WireEvent
  | .acked,        a, r, p => sentBytes (2 + p.length) a r p ++ [.stop]
  | .nackAt k,     a, r, p => sentBytes (k + 1) a r p ++ [.stop]
  | .errAt k stop, a, r, p => sentBytes k a r p ++ cutByte k a r p ++ (if stop then [.stop] else [])
  | .hangsAt k,    a, r, p => sentBytes k a r p ++ cutByte k a r p

/-- How many of the bus's answers it uses. -/
def BusEnding.used : BusEnding → List Byte → Nat
  | .acked,     p => 2 + p.length
  | .nackAt k,  _ => k + 1
  | .errAt k _, _ => k + 1
  | .hangsAt k, _ => k + 1

/-- The state this ending of the write `(a, r, p)` leaves: the record of R29 (none if it never ends), and the bus. -/
def BusEnding.after (e : BusEnding) (a : Addr7) (r : Byte) (p : List Byte) (s : State) : State :=
  { s with
    hist    := s.hist ++ e.outcome.toList.map (fun o => ⟨a, r, p, o⟩)
    wire    := s.wire ++ e.wire a r p
    answers := s.answers.drop (e.used p) }

/-- The ending is a FAIL (R85). -/
def BusEnding.Fails : BusEnding → Prop
  | .acked     => False
  | .nackAt _  => True
  | .errAt _ _ => True
  | .hangsAt _ => False

/-- The ending is no ending: the block is stuck (R86). -/
def BusEnding.Hangs : BusEnding → Prop
  | .acked     => False
  | .nackAt _  => False
  | .errAt _ _ => False
  | .hangsAt _ => True

/-- Writes issued one after the other to one device, every byte ACKed, lead from `s` to `t`. -/
def AllAcked (a : Addr7) : List (Byte × List Byte) → State → State → Prop
  | [],           s, t => t = s
  | (r, p) :: ws, s, t => BusEnding.acked.Happens a r p s ∧ AllAcked a ws (BusEnding.acked.after a r p s) t

/-- The payloads and registers of R71 (T_MODE1, T_MODE2, T_CHAN, T_PRESCALE, T_RESET), for a configuration. -/
def HasForm (c : Config) (t : Txn) : Prop :=
  (t.addr = c.devAddr.addr ∧ t.reg = 0x00#8 ∧
    (t.payload = [c.mode1Init] ∨ t.payload = [c.mode1Sleep] ∨ t.payload = [c.mode1Wake])) ∨
  (t.addr = c.devAddr.addr ∧ t.reg = 0x01#8 ∧ t.payload = [c.mode2Init]) ∨
  (t.addr = c.devAddr.addr ∧ ∃ n < 16, ∃ off ≤ 4095, t.reg = BitVec.ofNat 8 (0x06 + 4 * n) ∧
    t.payload = [0x00#8, 0x00#8, BitVec.ofNat 8 (off % 256), BitVec.ofNat 8 (off / 256)]) ∨
  (t.addr = c.devAddr.addr ∧ t.reg = 0xFE#8 ∧ ∃ v, 3 ≤ v ∧ v ≤ 255 ∧ t.payload = [BitVec.ofNat 8 v]) ∨
  (t.addr = 0x00#7 ∧ t.reg = 0x06#8 ∧ t.payload = [])

/-- FAIL(k) names a byte of the transaction: `0 <= k <= 1 + len(p)` (R85). -/
def OutcomeFits (t : Txn) : Prop := ∀ k, t.outcome = .failAt k → k ≤ 1 + t.payload.length

/-- What the lifecycle state says of the mirror, the pin and the history (R24, R25, R27, R138). -/
def LifeConsistent (s : State) : Prop :=
  match s.life with
  | .uninit   => s.sleeping = .unknown ∧ s.pin = .undriven ∧ s.hist = []
  | .failed   => s.sleeping = .unknown ∧ s.pin = .undriven
  | .ready    => s.sleeping ≠ .unknown ∧ s.pin = .low
  | .shutdown => (s.pin = .low → s.sleeping ≠ .unknown) ∧ (s.pin = .undriven → s.sleeping ≠ .awake)

/-- The invariant of the block's state: the lifecycle is consistent, the status is one of R151's codes, every record
has a form of R71 and a fitting outcome, and every transaction put one START on the bus (R50). -/
def State.Inv (s : State) : Prop :=
  LifeConsistent s ∧ s.status.toNat ≤ 6 ∧ (∀ t ∈ s.hist, HasForm s.cfg t ∧ OutcomeFits t) ∧
  s.wire.count .start = s.hist.length

/-- The word of SHUTDOWN (R136). -/
def shutdownWord : CmdWord := 0x0800000000000000#64

/-- A finite run from `s` that ENDS PROPERLY (R175): its last command is SHUTDOWN, every command in it finished, and no
command was presented after SHUTDOWN. -/
def EndsProperly (ws : List CmdWord) (s : State) : Prop :=
  (∃ before, ws = before ++ [shutdownWord] ∧ shutdownWord ∉ before) ∧ ∃ t, executeAll ws s = .next t

end Sys2Proof.Machine
end

