-- ==== Sys2Proof/Certificates/Slice0/Obligations.lean ====
section
/-! DEFINITION. The statements for the provers, from the numbered rules of spec/. -/

open Sys2Proof Sys2Proof.Machine

/-! ### Encoding -/

/-- R61 to R63, R65: decoding the word of a well-formed command gives it back, whatever its operands. -/
def Obligations.DecodeOfEncode : Prop :=
  ∀ i : Instr, i.wellFormed = true → decode (encode i) = .ok i

/-- R61 to R63: a word the decoder accepts is the one word of its command, whose operands are in range. -/
def Obligations.EncodeOfDecode : Prop :=
  ∀ (w : CmdWord) (i : Instr), decode w = .ok i → i.wellFormed = true ∧ encode i = w

/-- R65: a word selects exactly one row of R64's table and decodes to that row's mnemonic, or selects none and is
illegal. -/
def Obligations.DecodeAgreesWithTable : Prop :=
  ∀ w : CmdWord,
    (∃ i : Instr, decode w = .ok i ∧ ∃ row ∈ opcodeTable, row.mnemonic = i.mnemonic ∧ row.selects w = true ∧
      ∀ other ∈ opcodeTable, other.selects w = true → other = row) ∨
    ((∃ e : Illegal, decode w = .error e) ∧ ∀ row ∈ opcodeTable, row.selects w = false)

/-- R66: the words that are illegal, and what an illegal word does in every state: status 0x05, nothing else. -/
def Obligations.IllegalWordsAreRefusedWhole : Prop :=
  ∀ w : CmdWord,
    let opc : Nat := w.toNat / 2 ^ 56
    let ch : Nat := w.toNat / 2 ^ 48 % 2 ^ 8
    let rsv : Nat := w.toNat / 2 ^ 32 % 2 ^ 16
    let opd : Nat := w.toNat % 2 ^ 32
    ((∃ e : Illegal, decode w = .error e) ↔
      (opc = 0x00 ∨ 0x09 ≤ opc ∨ rsv ≠ 0 ∨ (ch ≠ 0 ∧ opc ≠ 0x02 ∧ opc ≠ 0x03) ∨
        (opd ≠ 0 ∧ (opc = 0x01 ∨ opc = 0x07 ∨ opc = 0x08)) ∨ (opd / 2 ≠ 0 ∧ opc = 0x06))) ∧
    ∀ (e : Illegal) (s : State) (rest : List HostEvent), decode w = .error e → s.inbox = .command w :: rest →
      step s = .next { s with inbox := rest, status := 0x05#8 }

/-- R62, R12: the operand values a decoded command has, as numbers of the word's fields. -/
def Obligations.OperandsAreTheWordsFields : Prop :=
  ∀ (w : CmdWord) (i : Instr), decode w = .ok i →
    let ch : Nat := w.toNat / 2 ^ 48 % 2 ^ 8
    let opd : Nat := w.toNat % 2 ^ 32
    let sext : Int := if opd < 2 ^ 31 then (opd : Int) else (opd : Int) - 2 ^ 32
    match i with
    | .init             => w.toNat / 2 ^ 56 = 0x01
    | .setDuty c d      => w.toNat / 2 ^ 56 = 0x02 ∧ c = ch ∧ d = sext
    | .setDutyRaw c n   => w.toNat / 2 ^ 56 = 0x03 ∧ c = ch ∧ n = sext
    | .setFreq hz       => w.toNat / 2 ^ 56 = 0x04 ∧ hz = opd
    | .setPrescaleRaw v => w.toNat / 2 ^ 56 = 0x05 ∧ v = sext
    | .setSleep sl      => w.toNat / 2 ^ 56 = 0x06 ∧ (sl = true ↔ opd % 2 = 1)
    | .resetAll         => w.toNat / 2 ^ 56 = 0x07
    | .shutdown         => w.toNat / 2 ^ 56 = 0x08

/-- R70: the twelve example lines assemble to their words, and the words decode. -/
def Obligations.ExampleLinesAndWords : Prop :=
  assembleLines ["INIT", "SET_DUTY 1, 0x001D27D2", "SET_DUTY_F 0, 1.0", "SET_DUTY_F 3, 0.5", "SET_DUTY_RAW 15, 5000",
      "SET_DUTY_RAW 0, -1", "SET_FREQ 50", "SET_PRESCALE_RAW 121", "SLEEP", "WAKE", "RESET_ALL", "SHUTDOWN"] =
    some [0x0100000000000000#64, 0x02010000001D27D2#64, 0x0200000001000000#64, 0x0203000000800000#64,
      0x030F000000001388#64, 0x03000000FFFFFFFF#64, 0x0400000000000032#64, 0x0500000000000079#64,
      0x0600000000000001#64, 0x0600000000000000#64, 0x0700000000000000#64, 0x0800000000000000#64] ∧
  decode 0x0100000000000000#64 = .ok .init ∧
  decode 0x02010000001D27D2#64 = .ok (.setDuty 1 0x001D27D2) ∧
  decode 0x0200000001000000#64 = .ok (.setDuty 0 0x01000000) ∧
  decode 0x0203000000800000#64 = .ok (.setDuty 3 0x00800000) ∧
  decode 0x030F000000001388#64 = .ok (.setDutyRaw 15 5000) ∧
  decode 0x03000000FFFFFFFF#64 = .ok (.setDutyRaw 0 (-1)) ∧
  decode 0x0400000000000032#64 = .ok (.setFreq 50) ∧
  decode 0x0500000000000079#64 = .ok (.setPrescaleRaw 121) ∧
  decode 0x0600000000000001#64 = .ok (.setSleep true) ∧
  decode 0x0600000000000000#64 = .ok (.setSleep false) ∧
  decode 0x0700000000000000#64 = .ok .resetAll ∧
  decode 0x0800000000000000#64 = .ok .shutdown

/-- R68, R69: the assembler spells no illegal word unless by `.word64`; the pseudo-instructions are their expansions. -/
def Obligations.AssemblerSpellsLegalWords : Prop :=
  (∀ (a : Asm) (w : CmdWord), assemble a = some w → (∃ x, a = .word64 x) ∨ ∃ i : Instr, decode w = .ok i) ∧
  assemble .sleep = assemble (.setSleep 1) ∧ assemble .wake = assemble (.setSleep 0) ∧
  (∀ ch, assemble (.zero ch) = assemble (.setDutyRaw ch 0)) ∧
  (∀ (ch : Int) (x : Rat), -2 ^ 31 ≤ roundNeRat (x * 2 ^ 24) → roundNeRat (x * 2 ^ 24) < 2 ^ 31 →
    assemble (.setDutyF ch x) = assemble (.setDuty ch (roundNeRat (x * 2 ^ 24)))) ∧
  (∀ (ch : Int) (x : Rat), roundNeRat (x * 2 ^ 24) < -2 ^ 31 ∨ 2 ^ 31 ≤ roundNeRat (x * 2 ^ 24) →
    assemble (.setDutyF ch x) = none)

/-! ### Reset, construction and the step -/

/-- R39: the state after reset has the reset values, and a host's reset of the block gives them again, with the
configuration kept (R171, R172: no transaction, no pin driven).  That `wire` restarts and that the host's later events
and the settled answers of the bus are kept is the model's choice (log entries 3 and 5). -/
def Obligations.ResetValues : Prop :=
  (State.reset.life = .uninit ∧ State.reset.sleeping = .unknown ∧ State.reset.pin = .undriven ∧
    State.reset.status = 0x00#8 ∧ State.reset.hist = []) ∧
  ∀ (s : State) (rest : List HostEvent), s.inbox = .reset :: rest →
    ∃ t : State, step s = .next t ∧ t.life = .uninit ∧ t.sleeping = .unknown ∧ t.pin = .undriven ∧ t.status = 0x00#8 ∧
      t.hist = [] ∧ t.wire = [] ∧ t.cfg = s.cfg ∧ t.inbox = rest ∧ t.answers = s.answers

/-- R9: an ill-formed configuration is refused; a well-formed one constructs a block with exactly its values, in the
reset state. -/
def Obligations.OnlyWellFormedConfigurationsRun : Prop :=
  ∀ p : ConfigParams,
    let ok := 0x01 ≤ p.devAddr ∧ p.devAddr ≤ 0x7F ∧ p.mode1Init ≤ 0xFF ∧ p.mode2Init ≤ 0xFF ∧
      p.mode1Sleep ≤ 0xFF ∧ p.mode1Wake ≤ 0xFF
    (¬ ok → construct p = .refused .illFormedConfig) ∧
    (ok → ∃ c : Config, construct p = .next { State.reset with cfg := c } ∧
      c.devAddr.addr.toNat = p.devAddr ∧ c.mode1Init.toNat = p.mode1Init ∧ c.mode2Init.toNat = p.mode2Init ∧
      c.mode1Sleep.toNat = p.mode1Sleep ∧ c.mode1Wake.toNat = p.mode1Wake ∧ c.dutyTie = p.dutyTie ∧
      c.busTiming = p.busTiming)

/-- R30, R67: a presented word that decodes to a command is that command run on the state from which the word has been
taken.  With nothing presented the block waits (the model's choice, log entry 3). -/
def Obligations.StepRunsTheDecodedCommand : Prop :=
  (∀ (s : State) (w : CmdWord) (rest : List HostEvent) (i : Instr), s.inbox = .command w :: rest →
    decode w = .ok i → step s = exec i { s with inbox := rest }) ∧
  ∀ s : State, s.inbox = [] → step s = .next s

/-- R86, R160: a step is never refused, and it stops only where the bus of `s` itself never answers a byte of a write:
after the answers the new records used, all of them OK, and in the same construction and configuration.  The model's own:
what the byte cut off shows on the bus (log entry 7), and that the fault carries the state the block hangs in, without
a record of that write (log entry 8). -/
def Obligations.StepsStopOnlyOnAHungBus : Prop :=
  ∀ s : State, (∀ r, step s ≠ .refused r) ∧
    ∀ f, step s = .fault f →
      ∃ (m : State) (new : List Txn) (a : Addr7) (r : Byte) (p : List Byte) (k : Nat),
        (BusEnding.hangsAt k).Happens a r p m ∧ f = .busNeverAnswers ((BusEnding.hangsAt k).after a r p m) ∧
        m.hist = s.hist ++ new ∧ (∀ x ∈ new, x.outcome = .ok) ∧
        m.answers = s.answers.drop (new.map fun x => 2 + x.payload.length).sum ∧ m.era = s.era ∧ m.cfg = s.cfg ∧
        (a = s.cfg.devAddr.addr ∨ a = 0x00#7)

/-! ### The bus write primitive -/

/-- R83, R85, R86: the bus's answers to a write are those of exactly one ending, and it decides what `BusWrite` returns,
what it records and what it puts on the bus.  The model's own:
what a byte cut off shows on the bus and whether STOP follows ERR (log entry 7), and that a hang's fault carries the
state without the write's record (log entry 8). -/
def Obligations.BusWriteEndsExactlyOneWay : Prop :=
  ∀ (a : Addr7) (r : Byte) (p : List Byte) (s : State), ∃ e : BusEnding,
    e.Happens a r p s ∧ (∀ e' : BusEnding, e'.Happens a r p s → e' = e) ∧
    busWrite a r p s =
      (match e with
        | .acked => BusResult.ok
        | .nackAt _ => BusResult.fail
        | .errAt _ _ => BusResult.fail
        | .hangsAt _ => BusResult.stuck, e.after a r p s)

/-- R81: the framing of a transaction every byte of which is ACKed, its size, and its record. -/
def Obligations.TransactionFraming : Prop :=
  ∀ (a : Addr7) (r : Byte) (p : List Byte) (s : State), (∀ k < 2 + p.length, s.answerAt a r p k = .ack) →
    busWrite a r p s = (.ok, { s with
      hist    := s.hist ++ [⟨a, r, p, .ok⟩]
      wire    := s.wire ++ ([.start, .byte (BitVec.ofNat 8 (a.toNat * 2)), .byte r] ++ p.map .byte ++ [.stop])
      answers := s.answers.drop (2 + p.length) })

/-! ### INIT -/

/-- R94, R96, R99, R86: INIT's eighteen writes in order.  All ACKed: pin LOW, asleep, READY, OK.  A FAIL of write `j`
ends it: FAILED, BUS_ERROR, no later write.  A write that never ends leaves it stuck.  The model's own:
what a byte cut off shows on the bus and whether STOP follows ERR (log entry 7), and that a hang's fault carries the
state without the write's record (log entry 8). -/
def Obligations.InitRunsItsSequence : Prop :=
  ∀ (s t : State) (j : Nat), s.life = .uninit ∨ s.life = .failed →
    let dev := s.cfg.devAddr.addr
    let writes : List (Byte × List Byte) :=
      [(0x00#8, [s.cfg.mode1Init]), (0x01#8, [s.cfg.mode2Init])] ++
        (List.range 16).map fun n => (BitVec.ofNat 8 (0x06 + 4 * n), [0x00#8, 0x00#8, 0x00#8, 0x00#8])
    (AllAcked dev writes s t →
      exec .init s = .next { t with pin := .low, sleeping := .asleep, life := .ready, status := 0x00#8 }) ∧
    (AllAcked dev (writes.take j) s t → ∀ w, writes[j]? = some w → ∀ e : BusEnding, e.Happens dev w.1 w.2 t →
      (e.Fails → exec .init s =
        .next { e.after dev w.1 w.2 t with life := .failed, status := 0x04#8 }) ∧
      (e.Hangs → exec .init s = .fault (.busNeverAnswers (e.after dev w.1 w.2 t))))

/-- R99, R95: an accepted INIT that finishes has one of two results, with the records as the rule counts them. -/
def Obligations.InitHasTwoResults : Prop :=
  ∀ s t : State, s.life = .uninit ∨ s.life = .failed → exec .init s = .next t →
    ∃ new : List Txn, t.hist = s.hist ++ new ∧
      ((t.status = 0x00#8 ∧ t.life = .ready ∧ t.sleeping = .asleep ∧ t.pin = .low ∧ new.length = 18 ∧
          ∀ x ∈ new, x.outcome = .ok) ∨
        (t.status = 0x04#8 ∧ t.life = .failed ∧ t.sleeping = s.sleeping ∧ t.pin = s.pin ∧
          ∃ (done : List Txn) (last : Txn), new = done ++ [last] ∧ done.length ≤ 17 ∧ (∀ x ∈ done, x.outcome = .ok) ∧
            last.outcome ≠ .ok))

/-- R97: INIT's zeroing of channel `n` and SET_DUTY of duty 0 on it issue the same transaction. -/
def Obligations.InitZeroesLikeSetDuty : Prop :=
  ∀ (s t s' t' : State) (n : Nat), n < 16 → s'.cfg = s.cfg → s'.life = .ready →
    s.life = .uninit ∨ s.life = .failed →
    exec .init s = .next t → t.status = 0x00#8 → exec (.setDuty n 0) s' = .next t' → t'.status = 0x00#8 →
    ∃ (before : List Txn) (x : Txn) (after : List Txn), t.hist = s.hist ++ before ++ [x] ++ after ∧
      before.length = 2 + n ∧ t'.hist = s'.hist ++ [x] ∧
      x.reg = BitVec.ofNat 8 (0x06 + 4 * n) ∧ x.payload = [0x00#8, 0x00#8, 0x00#8, 0x00#8]

/-- The frame of INIT: configuration, inputs to come and every register of the intended image outside MODE1, MODE2 and
the channels are unchanged (R33, R95). -/
def Obligations.InitFrame : Prop :=
  ∀ s t : State, exec .init s = .next t →
    t.cfg = s.cfg ∧ t.inbox = s.inbox ∧ t.era = s.era ∧
    ∀ r : Byte, (0x02 ≤ r.toNat ∧ r.toNat ≤ 0x05) ∨ 0x46 ≤ r.toNat →
      image s.cfg.devAddr.addr t.hist r = image s.cfg.devAddr.addr s.hist r

/-! ### SET_DUTY and SET_DUTY_RAW -/

/-- R105, R86: SET_DUTY_RAW from READY: the two checks, then the clamped count in one 4-byte write.  The model's own:
what a byte cut off shows on the bus and whether STOP follows ERR (log entry 7), and that a hang's fault carries the
state without the write's record (log entry 8). -/
def Obligations.SetDutyRawRule : Prop :=
  ∀ (s : State) (ch : Nat) (n : Int), s.life = .ready →
    let dev := s.cfg.devAddr.addr
    let reg := BitVec.ofNat 8 (0x06 + 4 * ch)
    let c := min n.toNat 4095
    let payload := [0x00#8, 0x00#8, BitVec.ofNat 8 (c % 256), BitVec.ofNat 8 (c / 256)]
    (16 ≤ ch → exec (.setDutyRaw ch n) s = .next { s with status := 0x02#8 }) ∧
    (ch < 16 → n < 0 → exec (.setDutyRaw ch n) s = .next { s with status := 0x01#8 }) ∧
    (ch < 16 → 0 ≤ n → ∀ e : BusEnding, e.Happens dev reg payload s →
      (e = .acked → exec (.setDutyRaw ch n) s = .next { e.after dev reg payload s with status := 0x00#8 }) ∧
      (e.Fails → exec (.setDutyRaw ch n) s = .next { e.after dev reg payload s with status := 0x04#8 }) ∧
      (e.Hangs → exec (.setDutyRaw ch n) s = .fault (.busNeverAnswers (e.after dev reg payload s))))

/-- R102, R105, R86: SET_DUTY from READY: the domain check, the conversion in the rule's integer forms, then the raw
setter's check, clamp and write.  The model's own:
what a byte cut off shows on the bus and whether STOP follows ERR (log entry 7), and that a hang's fault carries the
state without the write's record (log entry 8). -/
def Obligations.SetDutyRule : Prop :=
  ∀ (s : State) (ch : Nat) (d : Int), s.life = .ready →
    let dev := s.cfg.devAddr.addr
    let reg := BitVec.ofNat 8 (0x06 + 4 * ch)
    let n : Int := match s.cfg.dutyTie with
      | .halfEven =>
        if d % 4096 > 2048 ∨ (d % 4096 = 2048 ∧ d / 4096 % 2 = 1) then d / 4096 + 1 else d / 4096
      | .halfUp => (d + 2048) / 4096
    let c := min n.toNat 4095
    let payload := [0x00#8, 0x00#8, BitVec.ofNat 8 (c % 256), BitVec.ofNat 8 (c / 256)]
    (0 ≤ d → d ≤ 2 ^ 24 → 0 ≤ n ∧ n ≤ 4096) ∧
    (d < 0 ∨ 2 ^ 24 < d → exec (.setDuty ch d) s = .next { s with status := 0x01#8 }) ∧
    (0 ≤ d → d ≤ 2 ^ 24 → 16 ≤ ch → exec (.setDuty ch d) s = .next { s with status := 0x02#8 }) ∧
    (0 ≤ d → d ≤ 2 ^ 24 → ch < 16 → ∀ e : BusEnding, e.Happens dev reg payload s →
      (e = .acked → exec (.setDuty ch d) s = .next { e.after dev reg payload s with status := 0x00#8 }) ∧
      (e.Fails → exec (.setDuty ch d) s = .next { e.after dev reg payload s with status := 0x04#8 }) ∧
      (e.Hangs → exec (.setDuty ch d) s = .fault (.busNeverAnswers (e.after dev reg payload s))))

/-- R108, R109: the order of the errors of a SET_DUTY or SET_DUTY_RAW word, with CH, RSV and OPD as numbers of the
word; an error found by a check changes nothing but `status`. -/
def Obligations.DutyErrorsInOrder : Prop :=
  ∀ (s t : State) (w : CmdWord), execute w s = .next t →
    let ch : Nat := w.toNat / 2 ^ 48 % 2 ^ 8
    let rsv : Nat := w.toNat / 2 ^ 32 % 2 ^ 16
    let opd : Nat := w.toNat % 2 ^ 32
    let v : Int := if opd < 2 ^ 31 then (opd : Int) else (opd : Int) - 2 ^ 32
    (w.toNat / 2 ^ 56 = 0x02 →
      (rsv ≠ 0 → t = { s with status := 0x05#8 }) ∧
      (rsv = 0 → s.life ≠ .ready → t = { s with status := 0x06#8 }) ∧
      (rsv = 0 → s.life = .ready → v < 0 ∨ 2 ^ 24 < v → t = { s with status := 0x01#8 }) ∧
      (rsv = 0 → s.life = .ready → 0 ≤ v → v ≤ 2 ^ 24 → 16 ≤ ch → t = { s with status := 0x02#8 }) ∧
      (rsv = 0 → s.life = .ready → 0 ≤ v → v ≤ 2 ^ 24 → ch < 16 →
        ∃ x : Txn, t.hist = s.hist ++ [x] ∧ t.status = if x.outcome = .ok then 0x00#8 else 0x04#8)) ∧
    (w.toNat / 2 ^ 56 = 0x03 →
      (rsv ≠ 0 → t = { s with status := 0x05#8 }) ∧
      (rsv = 0 → s.life ≠ .ready → t = { s with status := 0x06#8 }) ∧
      (rsv = 0 → s.life = .ready → 16 ≤ ch → t = { s with status := 0x02#8 }) ∧
      (rsv = 0 → s.life = .ready → ch < 16 → v < 0 → t = { s with status := 0x01#8 }) ∧
      (rsv = 0 → s.life = .ready → ch < 16 → 0 ≤ v →
        ∃ x : Txn, t.hist = s.hist ++ [x] ∧ t.status = if x.outcome = .ok then 0x00#8 else 0x04#8))

/-- R107 and the frame of the duty commands: they write no `life`, `sleeping` or `pin`, add at most one record, do not
depend on `sleeping`, and leave the intended image alone outside the channel's four registers. -/
def Obligations.DutyCommandsFrame : Prop :=
  ∀ (i : Instr) (ch : Nat) (v : Int), i = .setDuty ch v ∨ i = .setDutyRaw ch v → ∀ s t : State, exec i s = .next t →
    t.life = s.life ∧ t.sleeping = s.sleeping ∧ t.pin = s.pin ∧ t.cfg = s.cfg ∧ t.inbox = s.inbox ∧ t.era = s.era ∧
    (t.hist = s.hist ∨ ∃ x : Txn, t.hist = s.hist ++ [x]) ∧
    (∀ m, exec i { s with sleeping := m } = .next { t with sleeping := m }) ∧
    ∀ r : Byte, ¬ (0x06 + 4 * ch ≤ r.toNat ∧ r.toNat ≤ 0x06 + 4 * ch + 3) →
      image s.cfg.devAddr.addr t.hist r = image s.cfg.devAddr.addr s.hist r

/-- R37, R38, R113: after an OK SET_DUTY_RAW the channel's on-cycles in the intended image are the clamped count, and
its four registers hold the payload. -/
def Obligations.ImageHoldsTheClampedCount : Prop :=
  ∀ (s t : State) (ch : Nat) (n : Int), s.life = .ready → exec (.setDutyRaw ch n) s = .next t → t.status = 0x00#8 →
    onImage s.cfg.devAddr.addr t.hist ch = some (min n.toNat 4095) ∧
    image s.cfg.devAddr.addr t.hist (BitVec.ofNat 8 (0x06 + 4 * ch)) = some 0x00#8 ∧
    image s.cfg.devAddr.addr t.hist (BitVec.ofNat 8 (0x06 + 4 * ch + 1)) = some 0x00#8 ∧
    ∃ hi : Byte, image s.cfg.devAddr.addr t.hist (BitVec.ofNat 8 (0x06 + 4 * ch + 3)) = some hi ∧ hi.toNat ≤ 0x0F

/-- R13: `round_tie(num / den)` is a nearest integer, and a tie goes to the even one or to the greater. -/
def Obligations.RoundingIsToNearest : Prop :=
  ∀ (tie : Tie) (num : Int) (den : Nat), 0 < den →
    let n := roundDiv tie num den
    2 * (num - n * den) ≤ den ∧ -(den : Int) ≤ 2 * (num - n * den) ∧
    ((2 * (num - n * den) = den ∨ 2 * (num - n * den) = -(den : Int)) →
      match tie with
      | .halfEven => n % 2 = 0
      | .halfUp   => num < n * den)

/-! ### SET_FREQ, SET_PRESCALE_RAW and SET_SLEEP -/

/-- R121, R86: SET_PRESCALE_RAW from READY: the sleep gate, the range, then one write of exactly `[v]`.  The model's own:
what a byte cut off shows on the bus and whether STOP follows ERR (log entry 7), and that a hang's fault carries the
state without the write's record (log entry 8). -/
def Obligations.SetPrescaleRawRule : Prop :=
  ∀ (s : State) (v : Int), s.life = .ready →
    let dev := s.cfg.devAddr.addr
    (s.sleeping ≠ .asleep → exec (.setPrescaleRaw v) s = .next { s with status := 0x03#8 }) ∧
    (s.sleeping = .asleep → v < 3 ∨ 255 < v → exec (.setPrescaleRaw v) s = .next { s with status := 0x01#8 }) ∧
    (s.sleeping = .asleep → 3 ≤ v → v ≤ 255 → ∃ b : Byte, (b.toNat : Int) = v ∧
      ∀ e : BusEnding, e.Happens dev 0xFE#8 [b] s →
        (e = .acked → exec (.setPrescaleRaw v) s = .next { e.after dev 0xFE#8 [b] s with status := 0x00#8 }) ∧
        (e.Fails → exec (.setPrescaleRaw v) s = .next { e.after dev 0xFE#8 [b] s with status := 0x04#8 }) ∧
        (e.Hangs → exec (.setPrescaleRaw v) s = .fault (.busNeverAnswers (e.after dev 0xFE#8 [b] s))))

/-- R116, R121, R86, with the prescale in R117's form: SET_FREQ from READY: hz = 0 first, then the sleep gate, the range,
the write.  The model's own:
what a byte cut off shows on the bus and whether STOP follows ERR (log entry 7), and that a hang's fault carries the
state without the write's record (log entry 8). -/
def Obligations.SetFreqRule : Prop :=
  ∀ (s : State) (hz : Nat), s.life = .ready →
    let dev := s.cfg.devAddr.addr
    let p : Int := (25000000 + 2048 * (hz : Int)) / (4096 * (hz : Int)) - 1
    (hz = 0 → exec (.setFreq hz) s = .next { s with status := 0x01#8 }) ∧
    (hz ≠ 0 → s.sleeping ≠ .asleep → exec (.setFreq hz) s = .next { s with status := 0x03#8 }) ∧
    (hz ≠ 0 → s.sleeping = .asleep → p < 3 ∨ 255 < p → exec (.setFreq hz) s = .next { s with status := 0x01#8 }) ∧
    (hz ≠ 0 → s.sleeping = .asleep → 3 ≤ p → p ≤ 255 → ∃ b : Byte, (b.toNat : Int) = p ∧
      ∀ e : BusEnding, e.Happens dev 0xFE#8 [b] s →
        (e = .acked → exec (.setFreq hz) s = .next { e.after dev 0xFE#8 [b] s with status := 0x00#8 }) ∧
        (e.Fails → exec (.setFreq hz) s = .next { e.after dev 0xFE#8 [b] s with status := 0x04#8 }) ∧
        (e.Hangs → exec (.setFreq hz) s = .fault (.busNeverAnswers (e.after dev 0xFE#8 [b] s))))

/-- R117: for integer hz >= 1 the prescale never rounds a tie, every rounding to nearest gives the same value, and it
is the rule's floor. -/
def Obligations.PrescaleNeverTies : Prop :=
  ∀ hz : Nat, 1 ≤ hz →
    (∀ k : Int, 2 * 25000000 ≠ 4096 * (hz : Int) * (2 * k + 1)) ∧
    (∀ tie : Tie, roundDiv tie 25000000 (4096 * hz) - 1 = prescaleOf hz) ∧
    prescaleOf hz = (25000000 + 2048 * (hz : Int)) / (4096 * (hz : Int)) - 1

/-- R118: the frequencies SET_FREQ accepts, and the prescales the others give. -/
def Obligations.AcceptedFrequencies : Prop :=
  (∀ hz : Nat, 24 ≤ hz → hz ≤ 1743 → 3 ≤ prescaleOf hz ∧ prescaleOf hz ≤ 253) ∧
  (∀ hz : Nat, 1 ≤ hz → hz ≤ 23 → 264 ≤ prescaleOf hz) ∧
  (∀ hz : Nat, 1744 ≤ hz → prescaleOf hz ≤ 2) ∧
  (∀ hz : Nat, 12208 ≤ hz → prescaleOf hz = -1) ∧
  (∀ hz : Nat, 1 ≤ hz → prescaleOf hz ≠ 254 ∧ prescaleOf hz ≠ 255) ∧
  (∀ (s t : State) (hz : Nat), s.life = .ready → exec (.setFreq hz) s = .next t →
    (s.sleeping = .asleep → hz < 24 ∨ 1743 < hz → t = { s with status := 0x01#8 }) ∧
    (hz = 0 → t = { s with status := 0x01#8 }) ∧ (t.status = 0x00#8 → 24 ≤ hz ∧ hz ≤ 1743))

/-- R126, R128, R86: SET_SLEEP from READY: one whole byte to MODE1; the mirror follows on OK and only then.  The
model's own: what a byte cut off shows on the bus and whether STOP follows ERR (log entry 7), and that a hang's fault carries the
state without the write's record (log entry 8). -/
def Obligations.SetSleepRule : Prop :=
  ∀ (s : State) (sl : Bool), s.life = .ready →
    let dev := s.cfg.devAddr.addr
    let b := if sl then s.cfg.mode1Sleep else s.cfg.mode1Wake
    ∀ e : BusEnding, e.Happens dev 0x00#8 [b] s →
      (e = .acked → exec (.setSleep sl) s =
        .next { e.after dev 0x00#8 [b] s with sleeping := if sl then .asleep else .awake, status := 0x00#8 }) ∧
      (e.Fails → exec (.setSleep sl) s = .next { e.after dev 0x00#8 [b] s with status := 0x04#8 }) ∧
      (e.Hangs → exec (.setSleep sl) s = .fault (.busNeverAnswers (e.after dev 0x00#8 [b] s)))

/-- R122, R129: the order of the errors of SET_PRESCALE_RAW, SET_FREQ and SET_SLEEP words; an error found by a check
changes nothing but `status`, and what each word that reaches its write leaves alone. -/
def Obligations.TimingErrorsInOrder : Prop :=
  ∀ (s t : State) (w : CmdWord), execute w s = .next t →
    let chRsv : Nat := w.toNat / 2 ^ 32 % 2 ^ 24
    let opd : Nat := w.toNat % 2 ^ 32
    let v : Int := if opd < 2 ^ 31 then (opd : Int) else (opd : Int) - 2 ^ 32
    let p : Int := (25000000 + 2048 * (opd : Int)) / (4096 * (opd : Int)) - 1
    (w.toNat / 2 ^ 56 = 0x05 →
      (chRsv ≠ 0 → t = { s with status := 0x05#8 }) ∧
      (chRsv = 0 → s.life ≠ .ready → t = { s with status := 0x06#8 }) ∧
      (chRsv = 0 → s.life = .ready → s.sleeping ≠ .asleep → t = { s with status := 0x03#8 }) ∧
      (chRsv = 0 → s.life = .ready → s.sleeping = .asleep → v < 3 ∨ 255 < v → t = { s with status := 0x01#8 }) ∧
      (chRsv = 0 → s.life = .ready → s.sleeping = .asleep → 3 ≤ v → v ≤ 255 →
        ∃ x : Txn, t.hist = s.hist ++ [x] ∧ (t.status = if x.outcome = .ok then 0x00#8 else 0x04#8) ∧
          t.sleeping = s.sleeping ∧ t.life = s.life ∧ t.pin = s.pin)) ∧
    (w.toNat / 2 ^ 56 = 0x04 →
      (chRsv ≠ 0 → t = { s with status := 0x05#8 }) ∧
      (chRsv = 0 → s.life ≠ .ready → t = { s with status := 0x06#8 }) ∧
      (chRsv = 0 → s.life = .ready → opd = 0 → t = { s with status := 0x01#8 }) ∧
      (chRsv = 0 → s.life = .ready → opd ≠ 0 → s.sleeping ≠ .asleep → t = { s with status := 0x03#8 }) ∧
      (chRsv = 0 → s.life = .ready → opd ≠ 0 → s.sleeping = .asleep → p < 3 ∨ 255 < p → t = { s with status := 0x01#8 }) ∧
      (chRsv = 0 → s.life = .ready → opd ≠ 0 → s.sleeping = .asleep → 3 ≤ p → p ≤ 255 →
        ∃ x : Txn, t.hist = s.hist ++ [x] ∧ (t.status = if x.outcome = .ok then 0x00#8 else 0x04#8) ∧
          t.sleeping = s.sleeping ∧ t.life = s.life ∧ t.pin = s.pin)) ∧
    (w.toNat / 2 ^ 56 = 0x06 →
      (chRsv ≠ 0 ∨ 2 ≤ opd → t = { s with status := 0x05#8 }) ∧
      (chRsv = 0 → opd < 2 → s.life ≠ .ready → t = { s with status := 0x06#8 }) ∧
      (chRsv = 0 → opd < 2 → s.life = .ready →
        ∃ x : Txn, t.hist = s.hist ++ [x] ∧ (t.status = if x.outcome = .ok then 0x00#8 else 0x04#8) ∧
          (x.outcome ≠ .ok → t.sleeping = s.sleeping) ∧ t.life = s.life ∧ t.pin = s.pin))

/-- The frame of SET_FREQ and SET_PRESCALE_RAW (R122): no `sleeping`, `life` or `pin`, at most one record, and the
intended image alone outside PRESCALE. -/
def Obligations.PrescaleCommandsFrame : Prop :=
  ∀ i : Instr, (∃ hz : Nat, i = .setFreq hz) ∨ (∃ v : Int, i = .setPrescaleRaw v) → ∀ s t : State, exec i s = .next t →
    t.life = s.life ∧ t.sleeping = s.sleeping ∧ t.pin = s.pin ∧ t.cfg = s.cfg ∧ t.inbox = s.inbox ∧ t.era = s.era ∧
    (t.hist = s.hist ∨ ∃ x : Txn, t.hist = s.hist ++ [x]) ∧
    ∀ r : Byte, r ≠ 0xFE#8 → image s.cfg.devAddr.addr t.hist r = image s.cfg.devAddr.addr s.hist r

/-- The frame of SET_SLEEP and SHUTDOWN: `pin`, configuration and inputs to come unchanged, SET_SLEEP leaves `life`,
at most one record, and the intended image alone outside MODE1 (R129, R138). -/
def Obligations.ModeCommandsFrame : Prop :=
  ∀ i : Instr, (∃ sl : Bool, i = .setSleep sl) ∨ i = .shutdown → ∀ s t : State, exec i s = .next t →
    t.pin = s.pin ∧ t.cfg = s.cfg ∧ t.inbox = s.inbox ∧ t.era = s.era ∧ (i ≠ .shutdown → t.life = s.life) ∧
    (t.hist = s.hist ∨ ∃ x : Txn, t.hist = s.hist ++ [x]) ∧
    ∀ r : Byte, r ≠ 0x00#8 → image s.cfg.devAddr.addr t.hist r = image s.cfg.devAddr.addr s.hist r

/-- R123: while the mirror is not TRUE no command writes the chip's PRESCALE register.  That a hang's fault carries a
history is log entry 8. -/
def Obligations.NoPrescaleWriteWhileAwake : Prop :=
  ∀ (s t : State) (w : CmdWord), s.sleeping ≠ .asleep →
    execute w s = .next t ∨ execute w s = .fault (.busNeverAnswers t) →
    ∃ new : List Txn, t.hist = s.hist ++ new ∧ ∀ x ∈ new, x.reg ≠ 0xFE#8

/-! ### RESET_ALL and SHUTDOWN -/

/-- R133, R86: RESET_ALL from READY is one write with an empty payload to device 0, register 6.  The model's own:
what a byte cut off shows on the bus and whether STOP follows ERR (log entry 7), and that a hang's fault carries the
state without the write's record (log entry 8). -/
def Obligations.ResetAllRule : Prop :=
  ∀ s : State, s.life = .ready → ∀ e : BusEnding, e.Happens 0x00#7 0x06#8 [] s →
    (e = .acked → exec .resetAll s = .next { e.after 0x00#7 0x06#8 [] s with status := 0x00#8 }) ∧
    (e.Fails → exec .resetAll s = .next { e.after 0x00#7 0x06#8 [] s with status := 0x04#8 }) ∧
    (e.Hangs → exec .resetAll s = .fault (.busNeverAnswers (e.after 0x00#7 0x06#8 [] s)))

/-- R134 and the frame of RESET_ALL: only `status`, one record and the bus change; the intended image is unchanged, and
after an OK one every register of the chip is unknown. -/
def Obligations.ResetAllFrame : Prop :=
  ∀ s t : State, exec .resetAll s = .next t →
    t.life = s.life ∧ t.sleeping = s.sleeping ∧ t.pin = s.pin ∧ t.cfg = s.cfg ∧ t.inbox = s.inbox ∧ t.era = s.era ∧
    (t.hist = s.hist ∨ ∃ x : Txn, t.hist = s.hist ++ [x]) ∧
    (∀ r : Byte, image s.cfg.devAddr.addr t.hist r = image s.cfg.devAddr.addr s.hist r) ∧
    (t.status = 0x00#8 → ∀ r : Byte, chipRegister s.cfg.devAddr.addr t.hist r = .unknown)

/-- R137, R138, R86: SHUTDOWN from READY or FAILED writes MODE1_SLEEP to MODE1 and ends the lifecycle whatever the
outcome; the mirror is TRUE on OK and unchanged on FAIL.  The model's own:
what a byte cut off shows on the bus and whether STOP follows ERR (log entry 7), and that a hang's fault carries the
state without the write's record (log entry 8). -/
def Obligations.ShutdownRule : Prop :=
  ∀ s : State, s.life = .ready ∨ s.life = .failed →
    let dev := s.cfg.devAddr.addr
    let p := [s.cfg.mode1Sleep]
    ∀ e : BusEnding, e.Happens dev 0x00#8 p s →
      (e = .acked → exec .shutdown s =
        .next { e.after dev 0x00#8 p s with life := .shutdown, sleeping := .asleep, status := 0x00#8 }) ∧
      (e.Fails → exec .shutdown s =
        .next { e.after dev 0x00#8 p s with life := .shutdown, status := 0x04#8 }) ∧
      (e.Hangs → exec .shutdown s = .fault (.busNeverAnswers (e.after dev 0x00#8 p s)))

/-- R140: after SHUTDOWN every legal command finishes BAD_STATE and every illegal word ILLEGAL_COMMAND, with no
transaction; only a reset of the block leaves SHUTDOWN.  The last clause is the rule's worked example. -/
def Obligations.ShutdownIsFinal : Prop :=
  (∀ s : State, s.life = .shutdown →
    (∀ w : CmdWord, (∃ i : Instr, decode w = .ok i) → execute w s = .next { s with status := 0x06#8 }) ∧
    (∀ w : CmdWord, (∃ e : Illegal, decode w = .error e) → execute w s = .next { s with status := 0x05#8 }) ∧
    (∀ t : State, step s = .next t → t.life ≠ .shutdown → ∃ rest : List HostEvent, s.inbox = .reset :: rest)) ∧
  ∀ s : State, s.life = .ready → s.sleeping = .awake →
    BusEnding.acked.Happens s.cfg.devAddr.addr 0x00#8 [s.cfg.mode1Sleep] s →
    ∃ t : State, execute 0x0800000000000000#64 s = .next t ∧
      t.hist = s.hist ++ [⟨s.cfg.devAddr.addr, 0x00#8, [s.cfg.mode1Sleep], .ok⟩] ∧ t.life = .shutdown ∧
      t.sleeping = .asleep ∧ t.status = 0x00#8 ∧ execute 0x0201000000000000#64 t = .next { t with status := 0x06#8 }

/-! ### Status, lifecycle and the whole machine -/

/-- R154: which lifecycle states accept which commands; a command that is not accepted changes nothing but `status`,
and one that is accepted never finishes BAD_STATE. -/
def Obligations.LifecycleAcceptance : Prop :=
  ∀ (i : Instr) (s : State),
    let yes : Prop := match i with
      | .init     => s.life = .uninit ∨ s.life = .failed
      | .shutdown => s.life = .ready ∨ s.life = .failed
      | _         => s.life = .ready
    (¬ yes → exec i s = .next { s with status := 0x06#8 }) ∧
    (yes → ∀ t, exec i s = .next t → t.status ≠ 0x06#8)

/-- R155: a command that fails a check changes nothing but `status`; one that fails with BUS_ERROR has issued
transactions up to the failing one and none later, and writes only `life` in INIT and SHUTDOWN. -/
def Obligations.FailuresLeaveNothingHalfDone : Prop :=
  ∀ (s t : State) (w : CmdWord), execute w s = .next t →
    ((t.status = 0x01#8 ∨ t.status = 0x02#8 ∨ t.status = 0x03#8 ∨ t.status = 0x05#8 ∨ t.status = 0x06#8) →
      t = { s with status := t.status }) ∧
    (t.status = 0x04#8 →
      (∃ (done : List Txn) (last : Txn), t.hist = s.hist ++ done ++ [last] ∧ (∀ x ∈ done, x.outcome = .ok) ∧
        last.outcome ≠ .ok) ∧
      t.sleeping = s.sleeping ∧ t.pin = s.pin ∧ t.cfg = s.cfg ∧ t.inbox = s.inbox ∧ t.era = s.era ∧
      t.life = if decode w = .ok .init then .failed else if decode w = .ok .shutdown then .shutdown else s.life)

/-- R151, R152: a command that finishes OK has had every transaction it issued end OK, and codes above 0x06 never
arise. -/
def Obligations.OkMeansEveryTransactionOk : Prop :=
  ∀ (s t : State) (w : CmdWord), execute w s = .next t →
    t.status.toNat ≤ 0x06 ∧
    ∃ new : List Txn, t.hist = s.hist ++ new ∧ (t.status = 0x00#8 → new ≠ [] ∧ ∀ x ∈ new, x.outcome = .ok)

/-- R153: the codes a command can return. -/
def Obligations.CodesACommandCanReturn : Prop :=
  ∀ (i : Instr) (s t : State), exec i s = .next t →
    match i with
    | .init             => t.status = 0x00#8 ∨ t.status = 0x04#8 ∨ t.status = 0x06#8
    | .setDuty _ _      => t.status ≠ 0x03#8 ∧ t.status ≠ 0x05#8 ∧ t.status.toNat ≤ 0x06
    | .setDutyRaw _ _   => t.status ≠ 0x03#8 ∧ t.status ≠ 0x05#8 ∧ t.status.toNat ≤ 0x06
    | .setFreq _        => t.status ≠ 0x02#8 ∧ t.status ≠ 0x05#8 ∧ t.status.toNat ≤ 0x06
    | .setPrescaleRaw _ => t.status ≠ 0x02#8 ∧ t.status ≠ 0x05#8 ∧ t.status.toNat ≤ 0x06
    | .setSleep _       => t.status = 0x00#8 ∨ t.status = 0x04#8 ∨ t.status = 0x06#8
    | .resetAll         => t.status = 0x00#8 ∨ t.status = 0x04#8 ∨ t.status = 0x06#8
    | .shutdown         => t.status = 0x00#8 ∨ t.status = 0x04#8 ∨ t.status = 0x06#8

/-- R168, R31: every word overwrites `status`, and no command's effect depends on what it held. -/
def Obligations.StatusIsNotSticky : Prop :=
  ∀ (s t : State) (w : CmdWord), execute w s = .next t →
    ∀ v : BitVec 8, execute w { s with status := v } = .next t

/-- R24, R159: the lifecycle changes only by INIT (to READY on OK, to FAILED on BUS_ERROR) and by SHUTDOWN. -/
def Obligations.LifeChangesOnlyByInitAndShutdown : Prop :=
  ∀ (i : Instr) (s t : State), exec i s = .next t → t.life ≠ s.life →
    (i = .init ∧ t.life = .ready ∧ t.status = 0x00#8) ∨
    (i = .init ∧ t.life = .failed ∧ t.status = 0x04#8) ∨
    (i = .shutdown ∧ t.life = .shutdown ∧ (s.life = .ready ∨ s.life = .failed))

/-- R25, R26, R27: the mirror becomes TRUE only by an OK INIT, SET_SLEEP 1 or SHUTDOWN, FALSE only by an OK SET_SLEEP 0,
never UNKNOWN; the pin is driven only by an OK INIT. -/
def Obligations.MirrorAndPinWriters : Prop :=
  ∀ (i : Instr) (s t : State), exec i s = .next t →
    (t.sleeping ≠ s.sleeping → t.status = 0x00#8 ∧
      ((t.sleeping = .asleep ∧ (i = .init ∨ i = .setSleep true ∨ i = .shutdown)) ∨
        (t.sleeping = .awake ∧ i = .setSleep false))) ∧
    (t.pin ≠ s.pin → i = .init ∧ t.pin = .low ∧ t.status = 0x00#8)

/-- R29, R51: a command only appends to the history, also when it never finishes; a setter issues at most one
transaction, INIT at most eighteen.  That a hang's fault carries a history is log entry 8. -/
def Obligations.HistoryOnlyGrows : Prop :=
  ∀ (i : Instr) (s t : State), exec i s = .next t ∨ exec i s = .fault (.busNeverAnswers t) →
    ∃ new : List Txn, t.hist = s.hist ++ new ∧ new.length ≤ if i = .init then 18 else 1

/-- R7, R39: no step changes the configuration, and no command changes what the host does next. -/
def Obligations.ConfigurationIsFixed : Prop :=
  (∀ s t : State, step s = .next t → t.cfg = s.cfg) ∧
  ∀ (i : Instr) (s t : State), exec i s = .next t → t.cfg = s.cfg ∧ t.inbox = s.inbox ∧ t.era = s.era

/-- R91: BUS_TIMING has no effect: changing it changes nothing in what a step does but itself.  That a hang's
fault carries a state is log entry 8. -/
def Obligations.BusTimingHasNoEffect : Prop :=
  ∀ (s : State) (n : Nat),
    let retime (u : State) : State := { u with cfg := { u.cfg with busTiming := n } }
    (∀ t, step s = .next t → step (retime s) = .next (retime t)) ∧
    (∀ t, step s = .fault (.busNeverAnswers t) → step (retime s) = .fault (.busNeverAnswers (retime t)))

/-- The state invariant holds at reset (R24, R25, R27, R39). -/
def Obligations.ResetSatisfiesInvariant : Prop := State.reset.Inv

/-- R24, R25, R27, R71, R85, R151: every step, of the host's commands and of its resets, keeps the state invariant:
lifecycle, mirror, pin and history agree, the status is a code of R151, every record has a form of R71. -/
def Obligations.StepKeepsInvariant : Prop :=
  ∀ s t : State, s.Inv → step s = .next t → t.Inv

/-- R175: a run that ends properly leaves the block shut down, unless it was never initialised; that the chip is asleep
it does not say. -/
def Obligations.ProperEndLeavesShutdown : Prop :=
  ∀ (ws : List CmdWord) (s t : State), EndsProperly ws s → executeAll ws s = .next t →
    t.life = .shutdown ∨ t.life = .uninit

/-- R88, R37, R179: what a SET_DUTY_RAW from READY that issued its write leaves of the chip.  BUS_ERROR: each of the
channel's four registers may hold what it might before or its new byte, and nothing else.  OK: each holds its new byte
while auto-increment is known to be on, and nothing is known of it otherwise.  No other register is touched.  The other
commands are in `CommandWritesOnTheChip`.  The model's own: the view is of writes alone (log entry 11), its use of
auto-increment (log entry 19), that an OK write counts as held at its end (log entry 20). -/
def Obligations.SetDutyRawLeavesOldOrNew : Prop :=
  ∀ (s t : State) (ch : Nat) (n : Int), s.life = .ready → exec (.setDutyRaw ch n) s = .next t →
    let c := min n.toNat 4095
    let dev := s.cfg.devAddr.addr
    let payload := [0x00#8, 0x00#8, BitVec.ofNat 8 (c % 256), BitVec.ofNat 8 (c / 256)]
    let reg (k : Nat) : Byte := BitVec.ofNat 8 (0x06 + 4 * ch + k)
    (t.status = 0x04#8 → ∀ k b, payload[k]? = some b →
      (chipRegister dev s.hist (reg k) = .unknown → chipRegister dev t.hist (reg k) = .unknown) ∧
      ∀ before : List Byte, chipRegister dev s.hist (reg k) = .oneOf before →
        ∃ after : List Byte, chipRegister dev t.hist (reg k) = .oneOf after ∧
          ∀ x, x ∈ after ↔ x ∈ before ∨ x = b) ∧
    (t.status = 0x00#8 → ∀ k b, payload[k]? = some b →
      chipRegister dev t.hist (reg k) = if autoIncrement dev s.hist then .oneOf [b] else .unknown) ∧
    ∀ r : Byte, ¬ (0x06 + 4 * ch ≤ r.toNat ∧ r.toNat ≤ 0x06 + 4 * ch + 3) →
      chipRegister dev t.hist r = chipRegister dev s.hist r

/-- R88, R182, R37, R179: what the write of any command leaves of the chip.  BUS_ERROR, INIT and every setter: after the
OK records of INIT, if any, came one that is not OK; each register it covers may hold what it might before that record or
its new byte, and nothing else, and no other register is touched.  OK, every setter but INIT: each register its record
covers holds its new byte if the record has one byte or auto-increment is known to be on, and nothing is known of it
otherwise; but for RESET_ALL no other register is touched.  The model's own: the view is of writes alone (log entry 11), a
broadcast reset that FAILs (log entry 10), that a record which puts the chip to sleep, as INIT, SET_SLEEP 1 and SHUTDOWN
do, costs no knowledge of the other registers (log entry 18; R167 and 91 N11 leave retention open), its use of
auto-increment (log entry 19), that an OK write counts as held at its end (log entry 20). -/
def Obligations.CommandWritesOnTheChip : Prop :=
  ∀ (i : Instr) (s t : State), exec i s = .next t →
    let dev := s.cfg.devAddr.addr
    let reg (x : Txn) (k : Nat) : Byte := BitVec.ofNat 8 (x.reg.toNat + k)
    let covers (x : Txn) (r : Byte) : Prop := x.reg.toNat ≤ r.toNat ∧ r.toNat < x.reg.toNat + x.payload.length
    (t.status = 0x04#8 → ∃ (done : List Txn) (x : Txn), t.hist = s.hist ++ done ++ [x] ∧
      (∀ y ∈ done, y.outcome = .ok) ∧ x.outcome ≠ .ok ∧ (i ≠ .init → done = []) ∧
      (∀ k b, x.payload[k]? = some b →
        (chipRegister dev (s.hist ++ done) (reg x k) = .unknown → chipRegister dev t.hist (reg x k) = .unknown) ∧
        ∀ before : List Byte, chipRegister dev (s.hist ++ done) (reg x k) = .oneOf before →
          ∃ after : List Byte, chipRegister dev t.hist (reg x k) = .oneOf after ∧
            ∀ y, y ∈ after ↔ y ∈ before ∨ y = b) ∧
      ∀ r : Byte, ¬ covers x r → chipRegister dev t.hist r = chipRegister dev (s.hist ++ done) r) ∧
    (t.status = 0x00#8 → i ≠ .init → ∃ x : Txn, t.hist = s.hist ++ [x] ∧ x.outcome = .ok ∧
      (∀ k b, x.payload[k]? = some b →
        chipRegister dev t.hist (reg x k) =
          if autoIncrement dev s.hist = true ∨ x.payload.length = 1 then .oneOf [b] else .unknown) ∧
      (i ≠ .resetAll → ∀ r : Byte, ¬ covers x r → chipRegister dev t.hist r = chipRegister dev s.hist r))

/-- R95, R179, R37: what OK commands other than the channel writes make known of the chip by their writes (log
entries 11, 18, 19, 20).
INIT leaves MODE1 and MODE2 at their constants and every channel register 0; SET_SLEEP and SHUTDOWN leave MODE1 at the
byte written, SET_PRESCALE_RAW and SET_FREQ leave PRESCALE at it, whether or not auto-increment is on. -/
def Obligations.OkWritesMakeTheChipKnown : Prop :=
  ∀ (i : Instr) (s t : State), exec i s = .next t → t.status = 0x00#8 →
    let known (r b : Byte) : Prop := chipRegister s.cfg.devAddr.addr t.hist r = .oneOf [b]
    match i with
    | .init             => known 0x00#8 s.cfg.mode1Init ∧ known 0x01#8 s.cfg.mode2Init ∧
        ∀ r : Byte, 0x06 ≤ r.toNat → r.toNat ≤ 0x45 → known r 0x00#8
    | .setDuty _ _      => True
    | .setDutyRaw _ _   => True
    | .setFreq hz       => ∃ b : Byte, known 0xFE#8 b ∧
        (b.toNat : Int) = (25000000 + 2048 * (hz : Int)) / (4096 * (hz : Int)) - 1
    | .setPrescaleRaw v => ∃ b : Byte, known 0xFE#8 b ∧ (b.toNat : Int) = v
    | .setSleep sl      => known 0x00#8 (if sl then s.cfg.mode1Sleep else s.cfg.mode1Wake)
    | .resetAll         => True
    | .shutdown         => known 0x00#8 s.cfg.mode1Sleep

/-- R179: auto-increment addressing is known to be on after an OK INIT, SET_SLEEP or SHUTDOWN, whose bytes carry it, and
may be off after an OK RESET_ALL; an INIT cut short may have turned it on, and no other command or failure changes what
is known of it (log entry 19). -/
def Obligations.AutoIncrementFollowsMode1 : Prop :=
  ∀ (i : Instr) (s t : State), exec i s = .next t →
    let now := autoIncrement s.cfg.devAddr.addr t.hist
    let before := autoIncrement s.cfg.devAddr.addr s.hist
    (t.status = 0x00#8 → (i = .init ∨ (∃ sl : Bool, i = .setSleep sl) ∨ i = .shutdown) → now = true) ∧
    (t.status = 0x00#8 → i = .resetAll → now = false) ∧
    (t.status ≠ 0x00#8 → i ≠ .init → now = before) ∧
    (t.status ≠ 0x00#8 → i = .init → now = before ∨ now = true) ∧
    ((∃ ch d, i = .setDuty ch d) ∨ (∃ ch n, i = .setDutyRaw ch n) ∨ (∃ hz, i = .setFreq hz) ∨
      (∃ v, i = .setPrescaleRaw v) → now = before)

/-! ### The host's servo layer -/

/-- From R143 and R145: for every integer angle whose operand does not saturate, quantization does not change the on-cycle
count, and it never ties, under either tie rule.  R145 says every integer angle; that the claim stops where `clamp_int32`
saturates, which is the range here, is the model's reading (DEDUCED, log entry 15). -/
def Obligations.IntegerAnglesQuantizeExactly : Prop :=
  ∀ (tie : Tie) (a : Int), -230400 ≤ a + 45 → a + 45 < 230400 →
    onCyclesOf tie (dutyOperand (servoDuty a)) = roundNeRat (servoDuty a * 4096) ∧
    dutyOperand (servoDuty a) % 4096 ≠ 2048

/-- R149: the source's servo properties, for every integer margin. -/
def Obligations.ServoEndPoints : Prop :=
  (∀ (ch : Nat) (b : Int),
    let c : ServoConfig := ⟨ch, b⟩
    percentAngle c 0 = c.maxAngle ∧ percentAngle c 1 = c.minAngle ∧
    percentAngle c (1 / 2) = roundNeRat (c.minAngle + c.angleRange / 2)) ∧
  ServoConfig.reference.minAngle = 20 ∧ ServoConfig.reference.maxAngle = 160 ∧
  percentAngle .reference 0 = 160 ∧ percentAngle .reference 1 = 20 ∧
  servoDuty 0 = 1 / 40 ∧ servoDuty 180 = 1 / 8
end

