-- ==== Sys2Proof/Laws/State.lean ====
section
/-! SUPPORT. One lemma per field per named update of the state, and per field of the state after a bus ending and
after a restart: no later proof unfolds a record update. -/

namespace Sys2Proof.Machine

variable (s : State)

@[simp] theorem State.setStatus_life (v : BitVec 8) : (s.setStatus v).life = s.life := rfl
@[simp] theorem State.setStatus_sleeping (v : BitVec 8) : (s.setStatus v).sleeping = s.sleeping := rfl
@[simp] theorem State.setStatus_pin (v : BitVec 8) : (s.setStatus v).pin = s.pin := rfl
@[simp] theorem State.setStatus_status (v : BitVec 8) : (s.setStatus v).status = v := rfl
@[simp] theorem State.setStatus_hist (v : BitVec 8) : (s.setStatus v).hist = s.hist := rfl
@[simp] theorem State.setStatus_cfg (v : BitVec 8) : (s.setStatus v).cfg = s.cfg := rfl
@[simp] theorem State.setStatus_inbox (v : BitVec 8) : (s.setStatus v).inbox = s.inbox := rfl
@[simp] theorem State.setStatus_answers (v : BitVec 8) : (s.setStatus v).answers = s.answers := rfl
@[simp] theorem State.setStatus_wire (v : BitVec 8) : (s.setStatus v).wire = s.wire := rfl
@[simp] theorem State.setStatus_era (v : BitVec 8) : (s.setStatus v).era = s.era := rfl

@[simp] theorem State.setLife_life (v : Life) : (s.setLife v).life = v := rfl
@[simp] theorem State.setLife_sleeping (v : Life) : (s.setLife v).sleeping = s.sleeping := rfl
@[simp] theorem State.setLife_pin (v : Life) : (s.setLife v).pin = s.pin := rfl
@[simp] theorem State.setLife_status (v : Life) : (s.setLife v).status = s.status := rfl
@[simp] theorem State.setLife_hist (v : Life) : (s.setLife v).hist = s.hist := rfl
@[simp] theorem State.setLife_cfg (v : Life) : (s.setLife v).cfg = s.cfg := rfl
@[simp] theorem State.setLife_inbox (v : Life) : (s.setLife v).inbox = s.inbox := rfl
@[simp] theorem State.setLife_answers (v : Life) : (s.setLife v).answers = s.answers := rfl
@[simp] theorem State.setLife_wire (v : Life) : (s.setLife v).wire = s.wire := rfl
@[simp] theorem State.setLife_era (v : Life) : (s.setLife v).era = s.era := rfl

@[simp] theorem State.setSleeping_life (v : Sleeping) : (s.setSleeping v).life = s.life := rfl
@[simp] theorem State.setSleeping_sleeping (v : Sleeping) : (s.setSleeping v).sleeping = v := rfl
@[simp] theorem State.setSleeping_pin (v : Sleeping) : (s.setSleeping v).pin = s.pin := rfl
@[simp] theorem State.setSleeping_status (v : Sleeping) : (s.setSleeping v).status = s.status := rfl
@[simp] theorem State.setSleeping_hist (v : Sleeping) : (s.setSleeping v).hist = s.hist := rfl
@[simp] theorem State.setSleeping_cfg (v : Sleeping) : (s.setSleeping v).cfg = s.cfg := rfl
@[simp] theorem State.setSleeping_inbox (v : Sleeping) : (s.setSleeping v).inbox = s.inbox := rfl
@[simp] theorem State.setSleeping_answers (v : Sleeping) : (s.setSleeping v).answers = s.answers := rfl
@[simp] theorem State.setSleeping_wire (v : Sleeping) : (s.setSleeping v).wire = s.wire := rfl
@[simp] theorem State.setSleeping_era (v : Sleeping) : (s.setSleeping v).era = s.era := rfl

@[simp] theorem State.setPin_life (v : Pin) : (s.setPin v).life = s.life := rfl
@[simp] theorem State.setPin_sleeping (v : Pin) : (s.setPin v).sleeping = s.sleeping := rfl
@[simp] theorem State.setPin_pin (v : Pin) : (s.setPin v).pin = v := rfl
@[simp] theorem State.setPin_status (v : Pin) : (s.setPin v).status = s.status := rfl
@[simp] theorem State.setPin_hist (v : Pin) : (s.setPin v).hist = s.hist := rfl
@[simp] theorem State.setPin_cfg (v : Pin) : (s.setPin v).cfg = s.cfg := rfl
@[simp] theorem State.setPin_inbox (v : Pin) : (s.setPin v).inbox = s.inbox := rfl
@[simp] theorem State.setPin_answers (v : Pin) : (s.setPin v).answers = s.answers := rfl
@[simp] theorem State.setPin_wire (v : Pin) : (s.setPin v).wire = s.wire := rfl
@[simp] theorem State.setPin_era (v : Pin) : (s.setPin v).era = s.era := rfl

@[simp] theorem State.record_life (t : Txn) : (s.record t).life = s.life := rfl
@[simp] theorem State.record_sleeping (t : Txn) : (s.record t).sleeping = s.sleeping := rfl
@[simp] theorem State.record_pin (t : Txn) : (s.record t).pin = s.pin := rfl
@[simp] theorem State.record_status (t : Txn) : (s.record t).status = s.status := rfl
@[simp] theorem State.record_hist (t : Txn) : (s.record t).hist = s.hist ++ [t] := rfl
@[simp] theorem State.record_cfg (t : Txn) : (s.record t).cfg = s.cfg := rfl
@[simp] theorem State.record_inbox (t : Txn) : (s.record t).inbox = s.inbox := rfl
@[simp] theorem State.record_answers (t : Txn) : (s.record t).answers = s.answers := rfl
@[simp] theorem State.record_wire (t : Txn) : (s.record t).wire = s.wire := rfl
@[simp] theorem State.record_era (t : Txn) : (s.record t).era = s.era := rfl

@[simp] theorem State.emit_life (ws : List WireEvent) (n : Nat) : (s.emit ws n).life = s.life := rfl
@[simp] theorem State.emit_sleeping (ws : List WireEvent) (n : Nat) : (s.emit ws n).sleeping = s.sleeping := rfl
@[simp] theorem State.emit_pin (ws : List WireEvent) (n : Nat) : (s.emit ws n).pin = s.pin := rfl
@[simp] theorem State.emit_status (ws : List WireEvent) (n : Nat) : (s.emit ws n).status = s.status := rfl
@[simp] theorem State.emit_hist (ws : List WireEvent) (n : Nat) : (s.emit ws n).hist = s.hist := rfl
@[simp] theorem State.emit_cfg (ws : List WireEvent) (n : Nat) : (s.emit ws n).cfg = s.cfg := rfl
@[simp] theorem State.emit_inbox (ws : List WireEvent) (n : Nat) : (s.emit ws n).inbox = s.inbox := rfl
@[simp] theorem State.emit_answers (ws : List WireEvent) (n : Nat) : (s.emit ws n).answers = s.answers.drop n := rfl
@[simp] theorem State.emit_wire (ws : List WireEvent) (n : Nat) : (s.emit ws n).wire = s.wire ++ ws := rfl
@[simp] theorem State.emit_era (ws : List WireEvent) (n : Nat) : (s.emit ws n).era = s.era := rfl

@[simp] theorem State.setInbox_life (es : List HostEvent) : (s.setInbox es).life = s.life := rfl
@[simp] theorem State.setInbox_sleeping (es : List HostEvent) : (s.setInbox es).sleeping = s.sleeping := rfl
@[simp] theorem State.setInbox_pin (es : List HostEvent) : (s.setInbox es).pin = s.pin := rfl
@[simp] theorem State.setInbox_status (es : List HostEvent) : (s.setInbox es).status = s.status := rfl
@[simp] theorem State.setInbox_hist (es : List HostEvent) : (s.setInbox es).hist = s.hist := rfl
@[simp] theorem State.setInbox_cfg (es : List HostEvent) : (s.setInbox es).cfg = s.cfg := rfl
@[simp] theorem State.setInbox_inbox (es : List HostEvent) : (s.setInbox es).inbox = es := rfl
@[simp] theorem State.setInbox_answers (es : List HostEvent) : (s.setInbox es).answers = s.answers := rfl
@[simp] theorem State.setInbox_wire (es : List HostEvent) : (s.setInbox es).wire = s.wire := rfl
@[simp] theorem State.setInbox_era (es : List HostEvent) : (s.setInbox es).era = s.era := rfl

@[simp] theorem State.restart_life : s.restart.life = .uninit := rfl
@[simp] theorem State.restart_sleeping : s.restart.sleeping = .unknown := rfl
@[simp] theorem State.restart_pin : s.restart.pin = .undriven := rfl
@[simp] theorem State.restart_status : s.restart.status = 0x00#8 := rfl
@[simp] theorem State.restart_hist : s.restart.hist = [] := rfl
@[simp] theorem State.restart_cfg : s.restart.cfg = s.cfg := rfl
@[simp] theorem State.restart_inbox : s.restart.inbox = s.inbox := rfl
@[simp] theorem State.restart_answers : s.restart.answers = s.answers := rfl
@[simp] theorem State.restart_wire : s.restart.wire = [] := rfl
@[simp] theorem State.restart_era : s.restart.era = s.era + 1 := rfl

variable (e : BusEnding) (a : Addr7) (r : Byte) (p : List Byte)

@[simp] theorem BusEnding.after_life : (e.after a r p s).life = s.life := rfl
@[simp] theorem BusEnding.after_sleeping : (e.after a r p s).sleeping = s.sleeping := rfl
@[simp] theorem BusEnding.after_pin : (e.after a r p s).pin = s.pin := rfl
@[simp] theorem BusEnding.after_status : (e.after a r p s).status = s.status := rfl
@[simp] theorem BusEnding.after_hist : (e.after a r p s).hist = s.hist ++ e.outcome.toList.map (fun o => ⟨a, r, p, o⟩) := rfl
@[simp] theorem BusEnding.after_cfg : (e.after a r p s).cfg = s.cfg := rfl
@[simp] theorem BusEnding.after_inbox : (e.after a r p s).inbox = s.inbox := rfl
@[simp] theorem BusEnding.after_answers : (e.after a r p s).answers = s.answers.drop (e.used p) := rfl
@[simp] theorem BusEnding.after_wire : (e.after a r p s).wire = s.wire ++ e.wire a r p := rfl
@[simp] theorem BusEnding.after_era : (e.after a r p s).era = s.era := rfl

@[simp] theorem State.reset_life : State.reset.life = .uninit := rfl
@[simp] theorem State.reset_sleeping : State.reset.sleeping = .unknown := rfl
@[simp] theorem State.reset_pin : State.reset.pin = .undriven := rfl
@[simp] theorem State.reset_status : State.reset.status = 0x00#8 := rfl
@[simp] theorem State.reset_hist : State.reset.hist = [] := rfl
@[simp] theorem State.reset_cfg : State.reset.cfg = Config.atConstruction := rfl
@[simp] theorem State.reset_inbox : State.reset.inbox = [] := rfl
@[simp] theorem State.reset_answers : State.reset.answers = [] := rfl
@[simp] theorem State.reset_wire : State.reset.wire = [] := rfl
@[simp] theorem State.reset_era : State.reset.era = 0 := rfl

@[simp] theorem State.dev_def : s.dev = s.cfg.devAddr.addr := rfl

end Sys2Proof.Machine
end

