-- ==== Sys2Proof/Laws/Ops.lean ====
section
/-! SUPPORT. One spec lemma per shared operation: what the byte loop, the bus write and the acceptance check do, said
once.  Later proofs cite these and do not unfold the operations. -/

namespace Sys2Proof.Machine

/-! ### Finishing and acceptance -/

@[simp] theorem finish_eq (c : StatusCode) (s : State) : finish c s = .next { s with status := c.code } := rfl

@[simp] theorem raise_eq (c : StatusCode) (s : State) : raise c s = .next { s with status := c.code } := rfl

@[simp] theorem illegalCommand_eq (s : State) : illegalCommand s = .next { s with status := 0x05#8 } := rfl

theorem ifAccepted_of_accepted {i : Instr} {s : State} (body : State → StepResult) (h : accepted i s.life = true) :
    ifAccepted i body s = body s := by
  simp [ifAccepted, h]

theorem ifAccepted_of_not_accepted {i : Instr} {s : State} (body : State → StepResult)
    (h : accepted i s.life = false) : ifAccepted i body s = .next { s with status := 0x06#8 } := by
  simp [ifAccepted, h, StatusCode.code]

/-! ### The byte loop -/

/-- If the next `n` answers are ACKs, the loop puts `n` bytes on the bus and goes on behind them. -/
theorem sendFrom_acked_prefix (ans : Nat → BusAnswer) (front back : List Byte) (k : Nat)
    (h : ∀ j < front.length, ans (k + j) = .ack) :
    sendFrom ans (front ++ back) k =
      ⟨(sendFrom ans back (k + front.length)).outcome,
        front.map .byte ++ (sendFrom ans back (k + front.length)).wire,
        (sendFrom ans back (k + front.length)).used⟩ := by
  induction front generalizing k with
  | nil => simp
  | cons b bs ih =>
    have h0 : ans k = .ack := by simpa using h 0 (by simp)
    have hs : ∀ j < bs.length, ans (k + 1 + j) = .ack := by
      intro j hj
      have := h (j + 1) (by simpa using hj)
      rwa [show k + (j + 1) = k + 1 + j by omega] at this
    have e : k + 1 + bs.length = k + (b :: bs).length := by simp; omega
    have step : sendFrom ans (b :: bs ++ back) k =
        ⟨(sendFrom ans (bs ++ back) (k + 1)).outcome, .byte b :: (sendFrom ans (bs ++ back) (k + 1)).wire,
          (sendFrom ans (bs ++ back) (k + 1)).used⟩ := by
      simp [sendFrom, h0]
    rw [step, ih (k + 1) hs, e]
    rfl

theorem frameBytes_length (a : Addr7) (r : Byte) (p : List Byte) : (frameBytes a r p).length = 2 + p.length := by
  simp [frameBytes]; omega

/-- Around byte `k`, a transaction's bytes are those before it, the byte, and those behind it. -/
theorem frameBytes_split {k : Nat} (a : Addr7) (r : Byte) (p : List Byte) (h : k < 2 + p.length) :
    ∃ b, (frameBytes a r p).drop k = b :: (frameBytes a r p).drop (k + 1) ∧
      (frameBytes a r p).take (k + 1) = (frameBytes a r p).take k ++ [b] ∧
      frameBytes a r p = (frameBytes a r p).take k ++ b :: (frameBytes a r p).drop (k + 1) := by
  have hk : k < (frameBytes a r p).length := by rw [frameBytes_length]; exact h
  refine ⟨(frameBytes a r p)[k], ?_, ?_, ?_⟩
  · exact List.drop_eq_getElem_cons hk
  · exact (List.take_append_getElem hk).symm
  · rw [← List.drop_eq_getElem_cons hk, List.take_append_drop]

/-- What the loop does from byte `k` on, when every byte before it is ACKed. -/
theorem transfer_split {k : Nat} {a : Addr7} {r : Byte} {p : List Byte} {s : State} (hk : k ≤ 2 + p.length)
    (h : AckedBefore k a r p s) :
    transfer a r p s =
      ⟨(sendFrom (s.answerAt a r p) ((frameBytes a r p).drop k) k).outcome,
        sentBytes k a r p ++ (sendFrom (s.answerAt a r p) ((frameBytes a r p).drop k) k).wire,
        (sendFrom (s.answerAt a r p) ((frameBytes a r p).drop k) k).used⟩ := by
  have hl : ((frameBytes a r p).take k).length = k := by
    rw [List.length_take, frameBytes_length]; omega
  have key := sendFrom_acked_prefix (s.answerAt a r p) ((frameBytes a r p).take k) ((frameBytes a r p).drop k) 0
    (by intro j hj; rw [Nat.zero_add]; exact h j (by omega))
  rw [List.take_append_drop, hl, Nat.zero_add] at key
  simp only [transfer, key]
  rfl

/-- The whole transaction, for each way the bus may answer it (R83, R85, R86). -/
theorem transfer_of_happens {e : BusEnding} {a : Addr7} {r : Byte} {p : List Byte} {s : State}
    (h : e.Happens a r p s) : transfer a r p s = ⟨e.outcome, e.wire a r p, e.used p⟩ := by
  cases e with
  | acked =>
    rw [transfer_split (k := 2 + p.length) (Nat.le_refl _) h]
    have : (frameBytes a r p).drop (2 + p.length) = [] := by
      rw [← frameBytes_length a r p, List.drop_length]
    simp [this, sendFrom, BusEnding.outcome, BusEnding.wire, BusEnding.used]
  | nackAt k =>
    obtain ⟨hk, hb, ha⟩ := h
    obtain ⟨b, hd, ht, -⟩ := frameBytes_split a r p hk
    rw [transfer_split (Nat.le_of_lt hk) hb, hd]
    simp [sendFrom, ha, BusEnding.outcome, BusEnding.wire, BusEnding.used, sentBytes, ht]
  | errAt k stop =>
    obtain ⟨hk, hb, ha⟩ := h
    obtain ⟨b, hd, -, -⟩ := frameBytes_split a r p hk
    rw [transfer_split (Nat.le_of_lt hk) hb, hd]
    simp [sendFrom, ha, BusEnding.outcome, BusEnding.wire, BusEnding.used, cutByte, hd]
  | hangsAt k =>
    obtain ⟨hk, hb, ha⟩ := h
    obtain ⟨b, hd, -, -⟩ := frameBytes_split a r p hk
    rw [transfer_split (Nat.le_of_lt hk) hb, hd]
    simp [sendFrom, ha, BusEnding.outcome, BusEnding.wire, BusEnding.used, cutByte, hd]

/-- The bus always answers a write in one of the four ways. -/
theorem exists_happens (a : Addr7) (r : Byte) (p : List Byte) (s : State) : ∃ e : BusEnding, e.Happens a r p s := by
  by_cases h : AckedBefore (2 + p.length) a r p s
  · exact ⟨.acked, h⟩
  · have hex : ∃ k, k < 2 + p.length ∧ s.answerAt a r p k ≠ .ack := by
      by_contra hno
      push Not at hno
      exact h hno
    have hlt := (Nat.find_spec hex).1
    have hne := (Nat.find_spec hex).2
    have hbefore : AckedBefore (Nat.find hex) a r p s := by
      intro j hj
      have := Nat.find_min hex hj
      push Not at this
      exact this (by omega)
    cases hc : s.answerAt a r p (Nat.find hex) with
    | ack => exact absurd hc hne
    | nack => exact ⟨.nackAt _, hlt, hbefore, hc⟩
    | err stop => exact ⟨.errAt _ stop, hlt, hbefore, hc⟩
    | never => exact ⟨.hangsAt _, hlt, hbefore, hc⟩

/-! ### The bus write -/

theorem busWrite_of_acked {a : Addr7} {r : Byte} {p : List Byte} {s : State} (h : BusEnding.acked.Happens a r p s) :
    busWrite a r p s = (.ok, BusEnding.acked.after a r p s) := by
  simp only [busWrite, transfer_of_happens h]
  rfl

theorem busWrite_of_fails {e : BusEnding} {a : Addr7} {r : Byte} {p : List Byte} {s : State}
    (h : e.Happens a r p s) (hf : e.Fails) : busWrite a r p s = (.fail, e.after a r p s) := by
  simp only [busWrite, transfer_of_happens h]
  cases e <;> first | exact hf.elim | rfl

theorem busWrite_of_hangs {e : BusEnding} {a : Addr7} {r : Byte} {p : List Byte} {s : State}
    (h : e.Happens a r p s) (hh : e.Hangs) : busWrite a r p s = (.stuck, e.after a r p s) := by
  simp only [busWrite, transfer_of_happens h]
  cases e with
  | hangsAt k => simp [BusEnding.outcome, BusEnding.after, State.emit]
  | acked => exact hh.elim
  | nackAt k => exact hh.elim
  | errAt k stop => exact hh.elim

variable {a : Addr7} {r : Byte} {p : List Byte} {s : State} {onOk onFail : State → StepResult}

theorem busWriteThen_of_acked (h : BusEnding.acked.Happens a r p s) :
    busWriteThen a r p onOk onFail s = onOk (BusEnding.acked.after a r p s) := by
  simp [busWriteThen, busWrite_of_acked h]

theorem busWriteThen_of_fails {e : BusEnding} (h : e.Happens a r p s) (hf : e.Fails) :
    busWriteThen a r p onOk onFail s = onFail (e.after a r p s) := by
  simp [busWriteThen, busWrite_of_fails h hf]

theorem busWriteThen_of_hangs {e : BusEnding} (h : e.Happens a r p s) (hh : e.Hangs) :
    busWriteThen a r p onOk onFail s = .fault (.busNeverAnswers (e.after a r p s)) := by
  simp [busWriteThen, busWrite_of_hangs h hh]

/-- Everything a bus write can do to its command: it goes on as after an OK, as after a FAIL, or hangs. -/
theorem busWriteThen_cases (a : Addr7) (r : Byte) (p : List Byte) (onOk onFail : State → StepResult) (s : State) :
    (BusEnding.acked.Happens a r p s ∧
      busWriteThen a r p onOk onFail s = onOk (BusEnding.acked.after a r p s)) ∨
    (∃ e : BusEnding, e.Fails ∧ e.Happens a r p s ∧
      busWriteThen a r p onOk onFail s = onFail (e.after a r p s)) ∨
    (∃ e : BusEnding, e.Hangs ∧ e.Happens a r p s ∧
      busWriteThen a r p onOk onFail s = .fault (.busNeverAnswers (e.after a r p s))) := by
  obtain ⟨e, h⟩ := exists_happens a r p s
  cases e with
  | acked => exact .inl ⟨h, busWriteThen_of_acked h⟩
  | nackAt k => exact .inr (.inl ⟨.nackAt k, trivial, h, busWriteThen_of_fails h trivial⟩)
  | errAt k stop => exact .inr (.inl ⟨.errAt k stop, trivial, h, busWriteThen_of_fails h trivial⟩)
  | hangsAt k => exact .inr (.inr ⟨.hangsAt k, trivial, h, busWriteThen_of_hangs h trivial⟩)

/-! ### The setters' tail -/

theorem writeAndFinish_of_acked (h : BusEnding.acked.Happens a r p s) :
    writeAndFinish a r p s = .next { BusEnding.acked.after a r p s with status := 0x00#8 } :=
  busWriteThen_of_acked h

theorem writeAndFinish_of_fails {e : BusEnding} (h : e.Happens a r p s) (hf : e.Fails) :
    writeAndFinish a r p s = .next { e.after a r p s with status := 0x04#8 } :=
  busWriteThen_of_fails h hf

theorem writeAndFinish_of_hangs {e : BusEnding} (h : e.Happens a r p s) (hh : e.Hangs) :
    writeAndFinish a r p s = .fault (.busNeverAnswers (e.after a r p s)) :=
  busWriteThen_of_hangs h hh

/-! ### Acceptance, per command -/

theorem accepted_setter_iff {i : Instr} (h1 : i ≠ .init) (h2 : i ≠ .shutdown) (l : Life) :
    accepted i l = true ↔ l = .ready := by
  cases i <;> first | contradiction | (cases l <;> simp [accepted, acceptsSetter])

end Sys2Proof.Machine
end

