-- ==== Sys2Proof/Laws/Step.lean ====
section
/-! SUPPORT. What a step is, case by case of the host's next event, and what the INIT sequence does as its writes are
answered. -/

namespace Sys2Proof.Machine

theorem step_of_command {s : State} {w : CmdWord} {rest : List HostEvent} (h : s.inbox = .command w :: rest) :
    step s = execute w { s with inbox := rest } := by
  simp only [step, h]; rfl

theorem step_of_reset {s : State} {rest : List HostEvent} (h : s.inbox = .reset :: rest) :
    step s = .next ({ s with inbox := rest }).restart := by
  simp only [step, h]; rfl

theorem step_of_idle {s : State} (h : s.inbox = []) : step s = .next s := by
  simp only [step, h]

theorem execute_of_decode {w : CmdWord} {i : Instr} (h : decode w = .ok i) (s : State) : execute w s = exec i s := by
  simp only [execute, h]

theorem execute_of_illegal {w : CmdWord} {e : Illegal} (h : decode w = .error e) (s : State) :
    execute w s = .next { s with status := 0x05#8 } := by
  simp only [execute, h, illegalCommand_eq]

/-- An accepted INIT is its sequence of writes. -/
theorem exec_init_of_accepted {s : State} (h : accepted .init s.life = true) :
    exec .init s = initSequence (initWrites s.cfg) s := by
  rw [exec, execInit, ifAccepted_of_accepted _ h]

/-- A command that is not accepted (R154). -/
theorem exec_of_not_accepted {i : Instr} {s : State} (h : accepted i s.life = false) :
    exec i s = .next { s with status := 0x06#8 } := by
  cases i with
  | init => rw [exec, execInit, ifAccepted_of_not_accepted _ h]
  | setDuty ch d => rw [exec, execSetDuty, ifAccepted_of_not_accepted _ h]
  | setDutyRaw ch n => rw [exec, execSetDutyRaw, ifAccepted_of_not_accepted _ h]
  | setFreq hz => rw [exec, execSetFreq, ifAccepted_of_not_accepted _ h]
  | setPrescaleRaw v => rw [exec, execSetPrescaleRaw, ifAccepted_of_not_accepted _ h]
  | setSleep sl => rw [exec, execSetSleep, ifAccepted_of_not_accepted _ h]
  | resetAll => rw [exec, execResetAll, ifAccepted_of_not_accepted _ h]
  | shutdown => rw [exec, execShutdown, ifAccepted_of_not_accepted _ h]

theorem allAcked_cfg {a : Addr7} {ws : List (Byte × List Byte)} {s t : State} (h : AllAcked a ws s t) :
    t.cfg = s.cfg := by
  induction ws generalizing s with
  | nil => rw [show t = s from h]
  | cons w ws ih =>
    obtain ⟨r, p⟩ := w
    simpa using ih h.2

/-- ACKed writes at the head of the sequence are passed. -/
theorem initSequence_append {ws vs : List (Byte × List Byte)} {s t : State} (h : AllAcked s.dev ws s t) :
    initSequence (ws ++ vs) s = initSequence vs t := by
  induction ws generalizing s with
  | nil => rw [show t = s from h]; rfl
  | cons w ws ih =>
    obtain ⟨r, p⟩ := w
    obtain ⟨h1, h2⟩ := h
    have : initSequence ((r, p) :: ws ++ vs) s = initSequence (ws ++ vs) (BusEnding.acked.after s.dev r p s) :=
      busWriteThen_of_acked h1
    rw [this]
    exact ih (s := BusEnding.acked.after s.dev r p s) h2

/-- How many bytes writes send, address and register bytes included (R81). -/
def bytesOf (ws : List (Byte × List Byte)) : Nat := (ws.map fun w => 2 + w.2.length).sum

/-- Enough settled ACKs: a write is ACKed. -/
theorem acked_of_replicate {a : Addr7} {r : Byte} {p : List Byte} {s : State} {n : Nat} {rest : List BusAnswer}
    (h : s.answers = List.replicate n .ack ++ rest) (hn : 2 + p.length ≤ n) : BusEnding.acked.Happens a r p s := by
  intro j hj
  have hj' : j < (List.replicate n BusAnswer.ack).length := by simp; omega
  simp [State.answerAt, h, List.getElem?_append_left hj']
  rw [List.getElem?_replicate_of_lt (by simpa using hj')]
  rfl

/-- Enough settled ACKs: writes are all ACKed, and the answers behind are left. -/
theorem allAcked_of_replicate {a : Addr7} {ws : List (Byte × List Byte)} {s : State} {n : Nat}
    {rest : List BusAnswer} (h : s.answers = List.replicate n .ack ++ rest) (hn : bytesOf ws ≤ n) :
    ∃ t, AllAcked a ws s t ∧ t.answers = List.replicate (n - bytesOf ws) .ack ++ rest := by
  induction ws generalizing s n with
  | nil => exact ⟨s, rfl, by simpa [bytesOf] using h⟩
  | cons w ws ih =>
    obtain ⟨r, p⟩ := w
    have hb : bytesOf ((r, p) :: ws) = 2 + p.length + bytesOf ws := by simp [bytesOf]
    have hp : 2 + p.length ≤ n := by omega
    have h' : (BusEnding.acked.after a r p s).answers = List.replicate (n - (2 + p.length)) .ack ++ rest := by
      simp [BusEnding.used, h, List.drop_append, Nat.sub_eq_zero_of_le hp]
    obtain ⟨t, ht, he⟩ := ih h' (by omega)
    exact ⟨t, ⟨acked_of_replicate h hp, ht⟩, by rw [he, hb, Nat.sub_sub]⟩

end Sys2Proof.Machine
end

