-- ==== Sys2Proof/Laws/Commands.lean ====
section
/-! SUPPORT. One spec lemma per command: everything it can do, as the check that stops it or the one write it issues.
For INIT, everything its sequence can do. -/

namespace Sys2Proof.Machine

variable {s : State}

/-- SET_DUTY_RAW's rule: one of its two checks, or its write. -/
theorem setDutyRaw_cases (ch : Nat) (n : Int) (s : State) :
    (16 ≤ ch ∧ setDutyRaw ch n s = .next { s with status := 0x02#8 }) ∨
    (ch < 16 ∧ n < 0 ∧ setDutyRaw ch n s = .next { s with status := 0x01#8 }) ∨
    (ch < 16 ∧ 0 ≤ n ∧
      setDutyRaw ch n s = writeAndFinish s.dev (channelReg ch) (channelPayload (clampOn n)) s) := by
  by_cases h : channelCount ≤ ch
  · exact .inl ⟨h, by rw [setDutyRaw, if_pos h]; rfl⟩
  by_cases h2 : n < 0
  · exact .inr (.inl ⟨Nat.lt_of_not_le h, h2, by rw [setDutyRaw, if_neg h, if_pos h2]; rfl⟩)
  · exact .inr (.inr ⟨Nat.lt_of_not_le h, Int.not_lt.mp h2, by rw [setDutyRaw, if_neg h, if_neg h2]⟩)

/-- SET_DUTY's rule: its domain check, or the raw setter on the converted count. -/
theorem setDuty_cases (ch : Nat) (d : Int) (s : State) :
    ((d < 0 ∨ 2 ^ 24 < d) ∧ setDuty ch d s = .next { s with status := 0x01#8 }) ∨
    (0 ≤ d ∧ d ≤ 2 ^ 24 ∧ setDuty ch d s = setDutyRaw ch (onCyclesOf s.cfg.dutyTie d) s) := by
  by_cases h : d < 0 ∨ oneQ < d
  · exact .inl ⟨h, by rw [setDuty, if_pos h]; rfl⟩
  · refine .inr ⟨?_, ?_, by rw [setDuty, if_neg h]⟩ <;> · simp only [oneQ] at h; omega

/-- SET_PRESCALE_RAW's rule: the sleep gate, the range, or its write. -/
theorem setPrescaleRaw_cases (v : Int) (s : State) :
    (s.sleeping ≠ .asleep ∧ setPrescaleRaw v s = .next { s with status := 0x03#8 }) ∨
    (s.sleeping = .asleep ∧ (v < 3 ∨ 255 < v) ∧ setPrescaleRaw v s = .next { s with status := 0x01#8 }) ∨
    (s.sleeping = .asleep ∧ 3 ≤ v ∧ v ≤ 255 ∧
      setPrescaleRaw v s = writeAndFinish s.dev regPrescale [u8 v.toNat] s) := by
  by_cases h : s.sleeping ≠ .asleep
  · exact .inl ⟨h, by rw [setPrescaleRaw, if_pos h]; rfl⟩
  have ha : s.sleeping = .asleep := not_not.mp h
  by_cases h2 : v < prescaleMin ∨ prescaleMax < v
  · exact .inr (.inl ⟨ha, h2, by rw [setPrescaleRaw, if_neg h, if_pos h2]; rfl⟩)
  · refine .inr (.inr ⟨ha, ?_, ?_, by rw [setPrescaleRaw, if_neg h, if_neg h2]⟩) <;>
      · simp only [prescaleMin, prescaleMax] at h2; omega

/-- SET_FREQ's rule: hz = 0, or the raw setter on the computed prescale. -/
theorem setFreq_cases (hz : Nat) (s : State) :
    (hz = 0 ∧ setFreq hz s = .next { s with status := 0x01#8 }) ∨
    (hz ≠ 0 ∧ setFreq hz s = setPrescaleRaw (prescaleOf hz) s) := by
  by_cases h : hz = 0
  · exact .inl ⟨h, by rw [setFreq, if_pos h]; rfl⟩
  · exact .inr ⟨h, by rw [setFreq, if_neg h]⟩

/-- What an OK write leaves `life` at, for every command but INIT. -/
def lifeAfter (i : Instr) (l : Life) : Life := if i = .shutdown then .shutdown else l

/-- What an OK write leaves the mirror at, for every command but INIT. -/
def sleepingAfter (i : Instr) (m : Sleeping) : Sleeping :=
  match i with
  | .setSleep sl => sleepingOf sl
  | .shutdown    => .asleep
  | _            => m

/-- The write a command other than INIT issues, if it issues one (R49). -/
def WriteOf (s : State) (a : Addr7) (r : Byte) (p : List Byte) : Instr → Prop
  | .init             => False
  | .setDuty ch d     => ch < 16 ∧ a = s.dev ∧ r = channelReg ch ∧
      p = channelPayload (clampOn (onCyclesOf s.cfg.dutyTie d))
  | .setDutyRaw ch n  => ch < 16 ∧ a = s.dev ∧ r = channelReg ch ∧ p = channelPayload (clampOn n)
  | .setFreq hz       => s.sleeping = .asleep ∧ a = s.dev ∧ r = regPrescale ∧ 3 ≤ prescaleOf hz ∧
      prescaleOf hz ≤ 255 ∧ p = [u8 (prescaleOf hz).toNat]
  | .setPrescaleRaw v => s.sleeping = .asleep ∧ a = s.dev ∧ r = regPrescale ∧ 3 ≤ v ∧ v ≤ 255 ∧ p = [u8 v.toNat]
  | .setSleep sl      => a = s.dev ∧ r = regMode1 ∧ p = [sleepByte sl s.cfg]
  | .resetAll         => a = resetAddr ∧ r = resetReg ∧ p = []
  | .shutdown         => a = s.dev ∧ r = regMode1 ∧ p = [s.cfg.mode1Sleep]

/-- Everything a command other than INIT can do: a check stops it with a code of R153 and nothing else, or it is
accepted and issues its one write, with the effects of its rule on OK and on FAIL. -/
theorem exec_cases (i : Instr) (s : State) (hi : i ≠ .init) :
    (exec i s = .next { s with status := 0x06#8 } ∧ accepted i s.life = false) ∨
    (accepted i s.life = true ∧ ∃ c : BitVec 8, (c = 0x01#8 ∨ c = 0x02#8 ∨ c = 0x03#8) ∧
      exec i s = .next { s with status := c }) ∨
    (accepted i s.life = true ∧ ∃ a r p, WriteOf s a r p i ∧
      exec i s = busWriteThen a r p
        (fun t => .next { t with life := lifeAfter i t.life, sleeping := sleepingAfter i t.sleeping, status := 0x00#8 })
        (fun t => .next { t with life := lifeAfter i t.life, status := 0x04#8 }) s) := by
  by_cases hacc : accepted i s.life = true
  swap
  · have hacc : accepted i s.life = false := by simpa using hacc
    exact .inl ⟨exec_of_not_accepted hacc, hacc⟩
  refine .inr ?_
  cases i with
  | init => exact absurd rfl hi
  | setDuty ch d =>
    have e : exec (.setDuty ch d) s = setDuty ch d s := ifAccepted_of_accepted _ hacc
    rcases setDuty_cases ch d s with ⟨-, h⟩ | ⟨-, -, h⟩
    · exact .inl ⟨hacc, _, .inl rfl, e.trans h⟩
    rcases setDutyRaw_cases ch (onCyclesOf s.cfg.dutyTie d) s with ⟨-, h'⟩ | ⟨-, -, h'⟩ | ⟨hc, -, h'⟩
    · exact .inl ⟨hacc, _, .inr (.inl rfl), e.trans (h.trans h')⟩
    · exact .inl ⟨hacc, _, .inl rfl, e.trans (h.trans h')⟩
    · exact .inr ⟨hacc, _, _, _, ⟨hc, rfl, rfl, rfl⟩, e.trans (h.trans h')⟩
  | setDutyRaw ch n =>
    have e : exec (.setDutyRaw ch n) s = setDutyRaw ch n s := ifAccepted_of_accepted _ hacc
    rcases setDutyRaw_cases ch n s with ⟨-, h'⟩ | ⟨-, -, h'⟩ | ⟨hc, -, h'⟩
    · exact .inl ⟨hacc, _, .inr (.inl rfl), e.trans h'⟩
    · exact .inl ⟨hacc, _, .inl rfl, e.trans h'⟩
    · exact .inr ⟨hacc, _, _, _, ⟨hc, rfl, rfl, rfl⟩, e.trans h'⟩
  | setFreq hz =>
    have e : exec (.setFreq hz) s = setFreq hz s := ifAccepted_of_accepted _ hacc
    rcases setFreq_cases hz s with ⟨-, h⟩ | ⟨-, h⟩
    · exact .inl ⟨hacc, _, .inl rfl, e.trans h⟩
    rcases setPrescaleRaw_cases (prescaleOf hz) s with ⟨-, h'⟩ | ⟨-, -, h'⟩ | ⟨hs, h3, h255, h'⟩
    · exact .inl ⟨hacc, _, .inr (.inr rfl), e.trans (h.trans h')⟩
    · exact .inl ⟨hacc, _, .inl rfl, e.trans (h.trans h')⟩
    · exact .inr ⟨hacc, _, _, _, ⟨hs, rfl, rfl, h3, h255, rfl⟩, e.trans (h.trans h')⟩
  | setPrescaleRaw v =>
    have e : exec (.setPrescaleRaw v) s = setPrescaleRaw v s := ifAccepted_of_accepted _ hacc
    rcases setPrescaleRaw_cases v s with ⟨-, h'⟩ | ⟨-, -, h'⟩ | ⟨hs, h3, h255, h'⟩
    · exact .inl ⟨hacc, _, .inr (.inr rfl), e.trans h'⟩
    · exact .inl ⟨hacc, _, .inl rfl, e.trans h'⟩
    · exact .inr ⟨hacc, _, _, _, ⟨hs, rfl, rfl, h3, h255, rfl⟩, e.trans h'⟩
  | setSleep sl => exact .inr ⟨hacc, _, _, _, ⟨rfl, rfl, rfl⟩, ifAccepted_of_accepted _ hacc⟩
  | resetAll => exact .inr ⟨hacc, _, _, _, ⟨rfl, rfl, rfl⟩, ifAccepted_of_accepted _ hacc⟩
  | shutdown => exact .inr ⟨hacc, _, _, _, ⟨rfl, rfl, rfl⟩, ifAccepted_of_accepted _ hacc⟩

/-! ### INIT -/

/-- ACKed writes change the history, the bus and nothing else; their records are all OK, in order. -/
theorem allAcked_effect {a : Addr7} {ws : List (Byte × List Byte)} {s t : State} (h : AllAcked a ws s t) :
    t = { s with hist := t.hist, wire := t.wire, answers := t.answers } ∧
    t.hist = s.hist ++ ws.map (fun w => ⟨a, w.1, w.2, .ok⟩) := by
  induction ws generalizing s with
  | nil => rw [show t = s from h]; simp
  | cons w ws ih =>
    obtain ⟨r, p⟩ := w
    obtain ⟨e, hh⟩ := ih h.2
    exact ⟨e, by simp [hh, BusEnding.outcome]⟩

/-- ACKed writes use one answer of the bus per byte they send. -/
theorem allAcked_answers {a : Addr7} {ws : List (Byte × List Byte)} {s t : State} (h : AllAcked a ws s t) :
    t.answers = s.answers.drop (ws.map fun w => 2 + w.2.length).sum := by
  induction ws generalizing s with
  | nil => rw [show t = s from h]; simp
  | cons w ws ih =>
    obtain ⟨r, p⟩ := w
    rw [ih h.2]
    simp [BusEnding.used]

/-- Everything INIT's sequence can do: all writes ACKed, or the first `j` of them and then a FAIL or a hang. -/
theorem initSequence_cases (ws : List (Byte × List Byte)) (s : State) :
    (∃ t, AllAcked s.dev ws s t ∧ initSequence ws s = initDone t) ∨
    (∃ j w t, ∃ e : BusEnding, ws[j]? = some w ∧ AllAcked s.dev (ws.take j) s t ∧ e.Happens s.dev w.1 w.2 t ∧
      ((e.Fails ∧ initSequence ws s = initFail (e.after s.dev w.1 w.2 t)) ∨
        (e.Hangs ∧ initSequence ws s = .fault (.busNeverAnswers (e.after s.dev w.1 w.2 t))))) := by
  induction ws generalizing s with
  | nil => exact .inl ⟨s, rfl, rfl⟩
  | cons w ws ih =>
    obtain ⟨r, p⟩ := w
    rcases busWriteThen_cases s.dev r p (initSequence ws) initFail s with ⟨h, e⟩ | ⟨en, hf, h, e⟩ | ⟨en, hh, h, e⟩
    · rcases ih (BusEnding.acked.after s.dev r p s) with ⟨t, ha, ht⟩ | ⟨j, w, t, en, hw, ha, hen, hres⟩
      · exact .inl ⟨t, ⟨h, ha⟩, e.trans ht⟩
      · refine .inr ⟨j + 1, w, t, en, by simpa using hw, ⟨h, ha⟩, hen, ?_⟩
        rcases hres with ⟨hf, hr⟩ | ⟨hh, hr⟩
        · exact .inl ⟨hf, e.trans hr⟩
        · exact .inr ⟨hh, e.trans hr⟩
    · exact .inr ⟨0, (r, p), s, en, rfl, rfl, h, .inl ⟨hf, e⟩⟩
    · exact .inr ⟨0, (r, p), s, en, rfl, rfl, h, .inr ⟨hh, e⟩⟩

/-- The next state of a command other than INIT: BAD_STATE, a check's code, or its write's OK or FAIL. -/
theorem exec_next_cases {i : Instr} {s t : State} (hi : i ≠ .init) (h : exec i s = .next t) :
    (accepted i s.life = false ∧ t = { s with status := 0x06#8 }) ∨
    (accepted i s.life = true ∧ ∃ c : BitVec 8, (c = 0x01#8 ∨ c = 0x02#8 ∨ c = 0x03#8) ∧ t = { s with status := c }) ∨
    (accepted i s.life = true ∧ ∃ a r p, WriteOf s a r p i ∧ BusEnding.acked.Happens a r p s ∧
      t = { BusEnding.acked.after a r p s with
        life := lifeAfter i s.life, sleeping := sleepingAfter i s.sleeping, status := 0x00#8 }) ∨
    (accepted i s.life = true ∧ ∃ a r p, ∃ e : BusEnding, WriteOf s a r p i ∧ e.Fails ∧ e.Happens a r p s ∧
      t = { e.after a r p s with life := lifeAfter i s.life, status := 0x04#8 }) := by
  rcases exec_cases i s hi with ⟨e, ha⟩ | ⟨ha, c, hc, e⟩ | ⟨ha, a, r, p, hw, e⟩
  · rw [e] at h
    injection h with h
    exact .inl ⟨ha, h.symm⟩
  · rw [e] at h
    injection h with h
    exact .inr (.inl ⟨ha, c, hc, h.symm⟩)
  · rw [e] at h
    rcases busWriteThen_cases a r p _ _ s with ⟨hh, e2⟩ | ⟨en, hf, hh, e2⟩ | ⟨en, hf, hh, e2⟩
    · rw [e2] at h
      injection h with h
      exact .inr (.inr (.inl ⟨ha, a, r, p, hw, hh, h.symm⟩))
    · rw [e2] at h
      injection h with h
      exact .inr (.inr (.inr ⟨ha, a, r, p, en, hw, hf, hh, h.symm⟩))
    · rw [e2] at h
      cases h

/-- The next state of INIT: BAD_STATE, the end of its sequence, or the FAIL of its write `j`. -/
theorem exec_init_next_cases {s t : State} (h : exec .init s = .next t) :
    (accepted .init s.life = false ∧ t = { s with status := 0x06#8 }) ∨
    (accepted .init s.life = true ∧ ∃ u, AllAcked s.dev (initWrites s.cfg) s u ∧
      t = { u with pin := .low, sleeping := .asleep, life := .ready, status := 0x00#8 }) ∨
    (accepted .init s.life = true ∧ ∃ j w u, ∃ e : BusEnding, (initWrites s.cfg)[j]? = some w ∧
      AllAcked s.dev ((initWrites s.cfg).take j) s u ∧ e.Happens s.dev w.1 w.2 u ∧ e.Fails ∧
      t = { e.after s.dev w.1 w.2 u with life := .failed, status := 0x04#8 }) := by
  by_cases ha : accepted .init s.life = true
  · rw [exec_init_of_accepted ha] at h
    rcases initSequence_cases (initWrites s.cfg) s with ⟨u, h1, h2⟩ | ⟨j, w, u, en, h1, h2, h3, ⟨h4, h5⟩ | ⟨h4, h5⟩⟩
    · rw [h2] at h
      injection h with h
      exact .inr (.inl ⟨ha, u, h1, h.symm⟩)
    · rw [h5] at h
      injection h with h
      exact .inr (.inr ⟨ha, j, w, u, en, h1, h2, h3, h4, h.symm⟩)
    · rw [h5] at h
      cases h
  · have hn : accepted .init s.life = false := by simpa using ha
    rw [exec_of_not_accepted hn] at h
    injection h with h
    exact .inl ⟨hn, h.symm⟩

/-- A FAIL has an outcome, and it is not OK. -/
theorem BusEnding.Fails.outcome {e : BusEnding} (h : e.Fails) : ∃ o, e.outcome = some o ∧ o ≠ .ok := by
  cases e with
  | acked => exact h.elim
  | nackAt k => exact ⟨_, rfl, by simp⟩
  | errAt k stop => exact ⟨_, rfl, by simp⟩
  | hangsAt k => exact h.elim

/-- Every ending puts exactly one START on the bus (R50, R81). -/
theorem BusEnding.wire_count_start (e : BusEnding) (a : Addr7) (r : Byte) (p : List Byte) :
    (e.wire a r p).count .start = 1 := by
  have hb (l : List Byte) : (l.map WireEvent.byte).count .start = 0 := by
    rw [List.count_eq_zero]
    simp
  have hs (k : Nat) : (sentBytes k a r p).count .start = 1 := by
    rw [sentBytes, List.count_cons_self, hb]
  have hc (k : Nat) : (cutByte k a r p).count .start = 0 := by
    rw [List.count_eq_zero]
    simp [cutByte]
  cases e with
  | acked => simp [BusEnding.wire, hs]
  | nackAt k => simp [BusEnding.wire, hs]
  | errAt k stop => cases stop <;> simp [BusEnding.wire, hs, hc]
  | hangsAt k => simp [BusEnding.wire, hs, hc]

theorem initWrites_length (c : Config) : (initWrites c).length = 18 := rfl

end Sys2Proof.Machine
end

