-- ==== Sys2Proof/Laws/Decode.lean ====
section
/-! SUPPORT. The bits and fields of an F0 word, said once. -/

namespace Sys2Proof

/-- Bit `k` of `{OPC, CH, 0, OPD}` (R61). -/
theorem wordF0_getLsbD (opc ch : BitVec 8) (opd : BitVec 32) (k : Nat) :
    (wordF0 opc ch opd).getLsbD k =
      if k < 32 then opd.getLsbD k else if k < 48 then false
      else if k < 56 then ch.getLsbD (k - 48) else opc.getLsbD (k - 56) := by
  have : (wordF0 opc ch opd).getLsbD k =
      BitVec.getLsbD (w := 8 + 8 + 16 + 32) (opc ++ ch ++ 0x0000#16 ++ opd) k := rfl
  rw [this, BitVec.getLsbD_append, BitVec.getLsbD_append, BitVec.getLsbD_append]
  by_cases h1 : k < 32
  · simp [h1]
  by_cases h2 : k < 48
  · have : k - 32 < 16 := by omega
    simp [h1, h2, this]
  by_cases h3 : k < 56
  · have : ¬ k - 32 < 16 := by omega
    have h5 : k - 32 - 16 = k - 48 := by omega
    have h4 : k - 48 < 8 := by omega
    simp [h1, h2, h3, this, h5, h4]
  · have : ¬ k - 32 < 16 := by omega
    have h4 : ¬ k - 32 - 16 < 8 := by omega
    have h5 : k - 32 - 16 - 8 = k - 56 := by omega
    simp [h1, h2, h3, this, h4, h5]

@[simp] theorem fieldOpc_wordF0 (opc ch : BitVec 8) (opd : BitVec 32) : fieldOpc (wordF0 opc ch opd) = opc := by
  apply BitVec.eq_of_getLsbD_eq
  intro k hk
  have h1 : ¬ 56 + k < 32 := by omega
  have h2 : ¬ 56 + k < 48 := by omega
  have h3 : ¬ 56 + k < 56 := by omega
  simp [fieldOpc, wordF0_getLsbD, hk, h1, h2]

@[simp] theorem fieldCh_wordF0 (opc ch : BitVec 8) (opd : BitVec 32) : fieldCh (wordF0 opc ch opd) = ch := by
  apply BitVec.eq_of_getLsbD_eq
  intro k hk
  have h1 : ¬ 48 + k < 32 := by omega
  have h2 : ¬ 48 + k < 48 := by omega
  have h3 : 48 + k < 56 := by omega
  simp [fieldCh, wordF0_getLsbD, hk, h1, h3]

@[simp] theorem fieldRsv_wordF0 (opc ch : BitVec 8) (opd : BitVec 32) : fieldRsv (wordF0 opc ch opd) = 0 := by
  apply BitVec.eq_of_getLsbD_eq
  intro k hk
  have h1 : ¬ 32 + k < 32 := by omega
  have h2 : 32 + k < 48 := by omega
  simp [fieldRsv, wordF0_getLsbD, hk, h2]

@[simp] theorem fieldOpd_wordF0 (opc ch : BitVec 8) (opd : BitVec 32) : fieldOpd (wordF0 opc ch opd) = opd := by
  apply BitVec.eq_of_getLsbD_eq
  intro k hk
  simp [fieldOpd, wordF0_getLsbD, hk]

theorem fieldOpc_toNat (w : CmdWord) : (fieldOpc w).toNat = w.toNat / 2 ^ 56 := by
  have := w.isLt
  simp [fieldOpc, BitVec.extractLsb', Nat.shiftRight_eq_div_pow]
  omega

theorem fieldCh_toNat (w : CmdWord) : (fieldCh w).toNat = w.toNat / 2 ^ 48 % 2 ^ 8 := by
  simp [fieldCh, BitVec.extractLsb', Nat.shiftRight_eq_div_pow]

theorem fieldRsv_toNat (w : CmdWord) : (fieldRsv w).toNat = w.toNat / 2 ^ 32 % 2 ^ 16 := by
  simp [fieldRsv, BitVec.extractLsb', Nat.shiftRight_eq_div_pow]

theorem fieldOpd_toNat (w : CmdWord) : (fieldOpd w).toNat = w.toNat % 2 ^ 32 := by
  simp [fieldOpd, BitVec.extractLsb']

/-- A word with RSV 0 is the F0 word of its fields. -/
theorem wordF0_fields {w : CmdWord} (h : fieldRsv w = 0) : wordF0 (fieldOpc w) (fieldCh w) (fieldOpd w) = w := by
  apply BitVec.eq_of_getLsbD_eq
  intro k hk
  rw [wordF0_getLsbD]
  split_ifs with h1 h2 h3
  · simp [fieldOpd, h1]
  · have hb := congrArg (fun x => BitVec.getLsbD x (k - 32)) h
    simp [fieldRsv] at hb
    rw [show 32 + (k - 32) = k by omega] at hb
    simp [hb (by omega)]
  · simp [fieldCh, show 48 + (k - 48) = k by omega, show k - 48 < 8 by omega]
  · simp [fieldOpc, show 56 + (k - 56) = k by omega, show k - 56 < 8 by omega]

/-- Everything the decoder can accept. -/
theorem decode_ok_cases {w : CmdWord} {i : Instr} (h : decode w = .ok i) :
    fieldRsv w = 0 ∧
    (((fieldOpc w).toNat = 1 ∧ i = .init ∧ fieldCh w = 0 ∧ fieldOpd w = 0) ∨
      ((fieldOpc w).toNat = 2 ∧ i = .setDuty (fieldCh w).toNat (fieldOpd w).toInt) ∨
      ((fieldOpc w).toNat = 3 ∧ i = .setDutyRaw (fieldCh w).toNat (fieldOpd w).toInt) ∨
      ((fieldOpc w).toNat = 4 ∧ i = .setFreq (fieldOpd w).toNat ∧ fieldCh w = 0) ∨
      ((fieldOpc w).toNat = 5 ∧ i = .setPrescaleRaw (fieldOpd w).toInt ∧ fieldCh w = 0) ∨
      ((fieldOpc w).toNat = 6 ∧ i = .setSleep ((fieldOpd w).getLsbD 0) ∧ fieldCh w = 0 ∧ fieldOpd w >>> 1 = 0) ∨
      ((fieldOpc w).toNat = 7 ∧ i = .resetAll ∧ fieldCh w = 0 ∧ fieldOpd w = 0) ∨
      ((fieldOpc w).toNat = 8 ∧ i = .shutdown ∧ fieldCh w = 0 ∧ fieldOpd w = 0)) := by
  unfold decode at h
  split at h
  · rename_i hr
    refine ⟨hr, ?_⟩
    split at h <;> rename_i ho <;> (try simp only [withoutOperands, withoutChannel, decodeSleep] at h) <;>
      (try split at h) <;> (try split at h) <;> cases h <;> simp_all
  · cases h

end Sys2Proof
end

