-- ==== Sys2Proof/Laws/PerInstr.lean ====
section
/-! SUPPORT. Per command: the word of a well-formed command lies in its own row of the match/mask table of R64. -/

namespace Sys2Proof.Laws.EncodedInRow

/-- The command's word is selected by the row of the table with its mnemonic. -/
def Statement (i : Instr) : Prop :=
  ∃ row ∈ opcodeTable, row.mnemonic = i.mnemonic ∧ row.selects (encode i) = true

theorem init : Statement .init := ⟨opcodeTable[0], by decide, by decide, by decide⟩

/-- A row that fixes OPC and RSV only looks at OPC in an F0 word. -/
theorem selects_channel (opc ch : BitVec 8) (opd : BitVec 32) :
    wordF0 opc ch opd &&& 0xFF00FFFF00000000#64 = wordF0 opc 0 0 := by
  apply BitVec.eq_of_getLsbD_eq
  intro k hk
  rw [BitVec.getLsbD_and, wordF0_getLsbD, wordF0_getLsbD]
  interval_cases k <;> simp

/-- A row that fixes OPC, CH and RSV only looks at OPC in an F0 word with CH 0. -/
theorem selects_operand (opc : BitVec 8) (opd : BitVec 32) :
    wordF0 opc 0 opd &&& 0xFFFFFFFF00000000#64 = wordF0 opc 0 0 := by
  apply BitVec.eq_of_getLsbD_eq
  intro k hk
  rw [BitVec.getLsbD_and, wordF0_getLsbD, wordF0_getLsbD]
  interval_cases k <;> simp

theorem setDuty (ch : Nat) (d : Int) : Statement (.setDuty ch d) :=
  ⟨opcodeTable[1], by decide, rfl, by
    simp only [OpcodeRow.selects, beq_iff_eq]
    exact (selects_channel 0x02 _ _).trans (by decide)⟩

theorem setDutyRaw (ch : Nat) (n : Int) : Statement (.setDutyRaw ch n) :=
  ⟨opcodeTable[2], by decide, rfl, by
    simp only [OpcodeRow.selects, beq_iff_eq]
    exact (selects_channel 0x03 _ _).trans (by decide)⟩

theorem setFreq (hz : Nat) : Statement (.setFreq hz) :=
  ⟨opcodeTable[3], by decide, rfl, by
    simp only [OpcodeRow.selects, beq_iff_eq]
    exact (selects_operand 0x04 _).trans (by decide)⟩

theorem setPrescaleRaw (v : Int) : Statement (.setPrescaleRaw v) :=
  ⟨opcodeTable[4], by decide, rfl, by
    simp only [OpcodeRow.selects, beq_iff_eq]
    exact (selects_operand 0x05 _).trans (by decide)⟩

theorem setSleep (sl : Bool) : Statement (.setSleep sl) :=
  ⟨opcodeTable[5], by decide, rfl, by cases sl <;> decide⟩

theorem resetAll : Statement .resetAll := ⟨opcodeTable[6], by decide, by decide, by decide⟩

theorem shutdown : Statement .shutdown := ⟨opcodeTable[7], by decide, by decide, by decide⟩

end Sys2Proof.Laws.EncodedInRow
end

