-- ==== Sys2Proof/Laws/View.lean ====
section
/-! SUPPORT. The views of the history, record by record: what appending one record does to the intended image, to
auto-increment and to what is known of a chip register. -/

namespace Sys2Proof.Machine

@[simp] theorem image_nil (dev : Addr7) (r : Byte) : image dev [] r = none := rfl
@[simp] theorem autoIncrement_nil (dev : Addr7) : autoIncrement dev [] = false := rfl
@[simp] theorem chipRegister_nil (dev : Addr7) (r : Byte) : chipRegister dev [] r = .unknown := rfl

@[simp] theorem image_append_one (dev : Addr7) (h : List Txn) (t : Txn) (r : Byte) :
    image dev (h ++ [t]) r = imageStep dev r (image dev h r) t := by
  simp [image]

@[simp] theorem autoIncrement_append_one (dev : Addr7) (h : List Txn) (t : Txn) :
    autoIncrement dev (h ++ [t]) = autoIncrementStep dev (autoIncrement dev h) t := by
  simp [autoIncrement]

/-- Byte `k` of a payload goes to the register `k` above the first (R37). -/
theorem byteAt_offset {t : Txn} {k : Nat} (h : t.reg.toNat + k < 256) :
    byteAt t (BitVec.ofNat 8 (t.reg.toNat + k)) = t.payload[k]? := by
  rw [byteAt, BitVec.toNat_ofNat, Nat.mod_eq_of_lt h, if_pos (Nat.le_add_right _ _), Nat.add_sub_cancel_left]

/-- A write covers no register outside its range (R88). -/
theorem byteAt_outside {t : Txn} {r : Byte}
    (h : ¬ (t.reg.toNat ≤ r.toNat ∧ r.toNat < t.reg.toNat + t.payload.length)) : byteAt t r = none := by
  unfold byteAt
  split
  · rw [List.getElem?_eq_none]
    omega
  · rfl

/-- The fold behind `chipRegister` carries `autoIncrement` along. -/
theorem learn_fold_autoIncrement (dev : Addr7) (r : Byte) (h : List Txn) (v : ChipView) :
    (h.foldl (learn dev r) v).autoIncrement = h.foldl (autoIncrementStep dev) v.autoIncrement := by
  induction h generalizing v with
  | nil => rfl
  | cons t h ih => exact ih (learn dev r v t)

@[simp] theorem chipRegister_append_one (dev : Addr7) (h : List Txn) (t : Txn) (r : Byte) :
    chipRegister dev (h ++ [t]) r = learnRegister dev r (autoIncrement dev h) (chipRegister dev h r) t := by
  simp only [chipRegister, autoIncrement, List.foldl_append, List.foldl_cons, List.foldl_nil]
  rw [← learn_fold_autoIncrement dev r h ⟨false, .unknown⟩]
  rfl

/-- A FAIL changes nothing in what is known of auto-increment. -/
theorem autoIncrementStep_fail {dev : Addr7} {on : Bool} {t : Txn} (h : t.outcome ≠ .ok) :
    autoIncrementStep dev on t = on := by
  have h' : (t.outcome == TxnOutcome.ok) = false := beq_false_of_ne h
  simp [autoIncrementStep, isBroadcastReset, writesMode1, h']

/-- An OK broadcast reset may turn auto-increment off (R179). -/
theorem autoIncrementStep_broadcastReset {dev : Addr7} {on : Bool} {t : Txn} (h : isBroadcastReset t = true) :
    autoIncrementStep dev on t = false := by
  simp [autoIncrementStep, h]

/-- A record of the chip is no broadcast reset. -/
theorem isBroadcastReset_chip {dev : Addr7} {t : Txn} (h : t.addr = dev) (h0 : dev ≠ 0x00#7) :
    isBroadcastReset t = false := by
  have h' : (t.addr == resetAddr) = false := beq_false_of_ne (h ▸ h0)
  simp [isBroadcastReset, h']

/-- An OK write of MODE1 turns auto-increment on (R179). -/
theorem autoIncrementStep_mode1 {dev : Addr7} {on : Bool} {t : Txn} (h0 : dev ≠ 0x00#7) (h : writesMode1 dev t = true) :
    autoIncrementStep dev on t = true := by
  have ha : t.addr = dev := by
    simp only [writesMode1, Bool.and_eq_true, beq_iff_eq] at h
    exact h.1.1.1
  simp [autoIncrementStep, isBroadcastReset_chip ha h0, h]

/-- A write of another register of the chip leaves it. -/
theorem autoIncrementStep_otherRegister {dev : Addr7} {on : Bool} {t : Txn} (h : t.addr = dev) (h0 : dev ≠ 0x00#7)
    (hr : t.reg ≠ regMode1) : autoIncrementStep dev on t = on := by
  have hr' : (t.reg == regMode1) = false := beq_false_of_ne hr
  simp [autoIncrementStep, isBroadcastReset_chip h h0, writesMode1, hr']

@[simp] theorem orByte_unknown (b : Byte) : RegKnowledge.unknown.orByte b = .unknown := rfl

/-- After a FAIL the register may hold what it might before, or the new byte, and nothing else (R88). -/
theorem orByte_oneOf (b : Byte) (bs : List Byte) :
    ∃ bs', (RegKnowledge.oneOf bs).orByte b = .oneOf bs' ∧ ∀ x, x ∈ bs' ↔ x ∈ bs ∨ x = b := by
  by_cases h : b ∈ bs
  · refine ⟨bs, by simp [RegKnowledge.orByte, h], fun x => ⟨.inl, ?_⟩⟩
    rintro (hx | rfl)
    · exact hx
    · exact h
  · exact ⟨b :: bs, by simp [RegKnowledge.orByte, h], fun x => by simp [or_comm]⟩

/-- A record of a device other than the chip and address 0 teaches nothing of the chip. -/
theorem learnRegister_other {dev : Addr7} {r : Byte} {on : Bool} {k : RegKnowledge} {t : Txn}
    (h : t.addr ≠ dev) (h0 : t.addr ≠ 0x00#7) : learnRegister dev r on k t = k := by
  simp [learnRegister, isBroadcastReset, resetAddr, h, h0]

/-- A record of the chip that does not cover the register leaves what is known of it. -/
theorem learnRegister_uncovered {dev : Addr7} {r : Byte} {on : Bool} {k : RegKnowledge} {t : Txn}
    (h : t.addr = dev) (h0 : dev ≠ 0x00#7) (hb : byteAt t r = none) : learnRegister dev r on k t = k := by
  simp [learnRegister, isBroadcastReset, resetAddr, h, h0, hb]

/-- A record of the chip that puts `b` at the register. -/
theorem learnRegister_covered {dev : Addr7} {r b : Byte} {on : Bool} {k : RegKnowledge} {t : Txn}
    (h : t.addr = dev) (h0 : dev ≠ 0x00#7) (hb : byteAt t r = some b) :
    learnRegister dev r on k t = afterWrite on t b k := by
  simp [learnRegister, isBroadcastReset, resetAddr, h, h0, hb]

end Sys2Proof.Machine
end

