-- ==== Sys2Proof/Tests/Slice0.lean ====
section
/-! SUPPORT. The model's own tests, expected results from spec/95_test_vectors.md and the examples of the rules, and
one witness for the hypotheses of each statement. -/

namespace Sys2Proof.Tests

-- One test after another: checked in parallel, these many evaluations exceed the check's limit on threads.
set_option Elab.async false

open Sys2Proof.Machine

/-! ### The check of operands and configurations refuses ill-formed terms (R9, R62) -/

theorem smoke_channel : (Instr.setDuty 256 0).wellFormed = false ∧ (Instr.setDutyRaw 256 0).wellFormed = false := by decide
theorem smoke_duty : (Instr.setDuty 0 0x80000000).wellFormed = false ∧ (Instr.setDuty 0 (-0x80000001)).wellFormed = false := by decide
theorem smoke_onCycles : (Instr.setDutyRaw 0 (2 ^ 31)).wellFormed = false ∧ (Instr.setDutyRaw 0 (-2 ^ 31 - 1)).wellFormed = false := by decide
theorem smoke_freq : (Instr.setFreq (2 ^ 32)).wellFormed = false := by decide
theorem smoke_prescale : (Instr.setPrescaleRaw (2 ^ 31)).wellFormed = false ∧ (Instr.setPrescaleRaw (-2 ^ 31 - 1)).wellFormed = false := by decide
theorem smoke_devAddr : (ConfigParams.mk 0 0 0 0 0 .halfEven 0).wellFormed = false ∧ (ConfigParams.mk 0x80 0 0 0 0 .halfEven 0).wellFormed = false := by decide
theorem smoke_modeBytes : (ConfigParams.mk 0x40 256 0 0 0 .halfEven 0).wellFormed = false ∧ (ConfigParams.mk 0x40 0 256 0 0 .halfEven 0).wellFormed = false ∧
    (ConfigParams.mk 0x40 0 0 256 0 .halfEven 0).wellFormed = false ∧ (ConfigParams.mk 0x40 0 0 0 256 .halfEven 0).wellFormed = false := by decide

/-! ### Decoding: words written out from R61 to R64 and R70, field by field {OPC, CH, RSV, OPD} -/

theorem test_decode_init : decode (0x01#8 ++ 0x00#8 ++ 0x0000#16 ++ 0x00000000#32) = .ok .init := by decide
theorem test_decode_setDuty : decode (0x02#8 ++ 0x01#8 ++ 0x0000#16 ++ 0x001D27D2#32) = .ok (.setDuty 1 1910738) := by decide
theorem test_decode_setDuty_negative : decode (0x02#8 ++ 0xFF#8 ++ 0x0000#16 ++ 0x80000000#32) = .ok (.setDuty 255 (-2147483648)) := by decide
theorem test_decode_setDutyRaw : decode (0x03#8 ++ 0x0F#8 ++ 0x0000#16 ++ 0x00001388#32) = .ok (.setDutyRaw 15 5000) := by decide
theorem test_decode_setFreq : decode (0x04#8 ++ 0x00#8 ++ 0x0000#16 ++ 0xFFFFFFFF#32) = .ok (.setFreq 4294967295) := by decide
theorem test_decode_setPrescaleRaw : decode (0x05#8 ++ 0x00#8 ++ 0x0000#16 ++ 0xFFFFFFFF#32) = .ok (.setPrescaleRaw (-1)) := by decide
theorem test_decode_setSleep : decode (0x06#8 ++ 0x00#8 ++ 0x0000#16 ++ 0x00000001#32) = .ok (.setSleep true) ∧
    decode (0x06#8 ++ 0x00#8 ++ 0x0000#16 ++ 0x00000000#32) = .ok (.setSleep false) := by decide
theorem test_decode_resetAll : decode (0x07#8 ++ 0x00#8 ++ 0x0000#16 ++ 0x00000000#32) = .ok .resetAll := by decide
theorem test_decode_shutdown : decode (0x08#8 ++ 0x00#8 ++ 0x0000#16 ++ 0x00000000#32) = .ok .shutdown := by decide

/-- DC1 to DC3, I8, I9, I10, SD22, SS7, SS8 (95_test_vectors 2.2, 2.3, 2.7, 2.10). -/
theorem test_decode_illegal :
    decode 0x0000000000000000#64 = .error .reservedOpcode ∧ decode 0x0900000000000000#64 = .error .reservedOpcode ∧
    decode 0xFF00000000000000#64 = .error .reservedOpcode ∧ decode 0x0100000000000001#64 = .error .operandBits ∧
    decode 0x0101000000000000#64 = .error .channelBits ∧ decode 0x0100000100000000#64 = .error .reservedBits ∧
    decode 0x0200000100000000#64 = .error .reservedBits ∧ decode 0x0600000000000002#64 = .error .sleepBits ∧
    decode 0x0600000080000001#64 = .error .sleepBits := by decide

theorem test_decodeTableWord : decodeTableWord 64 0x0600000000000001 = some (.setSleep true) ∧ decodeTableWord 64 0 = none := by decide

/-! ### Small states -/

/-- The example configuration: DEV_ADDR 0x40 and four bytes told apart. -/
def board (tie : Tie) : Config :=
  { devAddr := ⟨0x40#7, by decide⟩, mode1Init := 0x11#8, mode2Init := 0x22#8, mode1Sleep := 0x33#8, mode1Wake := 0x44#8,
    dutyTie := tie, busTiming := 0 }

/-- A block with no history, in front of a bus that answers as given. -/
def block (l : Life) (m : Sleeping) (p : Pin) (answers : List BusAnswer) : State :=
  { life := l, sleeping := m, pin := p, status := 0x00#8, hist := [], cfg := board .halfEven, inbox := [], answers := answers,
    wire := [], era := 0 }

/-- READY and asleep, every byte ACKed. -/
def asleep : State := block .ready .asleep .low (.replicate 12 .ack)
/-- READY and awake, every byte ACKed. -/
def awake : State := block .ready .awake .low (.replicate 12 .ack)
/-- As after reset, `n` bytes ACKed and then the given answers. -/
def fresh (n : Nat) (rest : List BusAnswer) : State := block .uninit .unknown .undriven (.replicate n .ack ++ rest)

/-- A property of the next state, false if there is none. -/
def nextHas (r : StepResult) (P : State → Bool) : Bool :=
  match r with
  | .next t    => P t
  | .fault _   => false
  | .refused _ => false

/-- A property of the state a block hangs in, false if it does not hang. -/
def hangHas (r : StepResult) (P : State → Bool) : Bool :=
  match r with
  | .next _                    => false
  | .fault (.busNeverAnswers t) => P t
  | .refused _                 => false

theorem nextHas_iff {r : StepResult} {P : State → Bool} : nextHas r P = true ↔ ∃ t, r = .next t ∧ P t = true := by
  cases r <;> simp [nextHas]

theorem hangHas_iff {r : StepResult} {P : State → Bool} :
    hangHas r P = true ↔ ∃ t, r = .fault (.busNeverAnswers t) ∧ P t = true := by
  rcases r with t | ⟨⟨t⟩⟩ | r <;> simp [hangHas]

/-- One OK record of the device 0x40. -/
def rec40 (r : Byte) (p : List Byte) : Txn := ⟨0x40#7, r, p, .ok⟩

/-! ### The commands, at most two each -/

/-- I1. -/
theorem test_init_ok : nextHas (exec .init (fresh 102 [])) (fun t =>
    decide (t.life = .ready ∧ t.sleeping = .asleep ∧ t.pin = .low ∧ t.status = 0x00#8 ∧ t.hist.length = 18 ∧
      t.hist.take 3 = [rec40 0x00#8 [0x11#8], rec40 0x01#8 [0x22#8], rec40 0x06#8 [0, 0, 0, 0]] ∧
      t.hist.getLast? = some (rec40 0x42#8 [0, 0, 0, 0]))) = true := by decide +kernel
/-- I3: byte 2 of T5 NACKed, after 3 + 3 + 6 + 6 + 6 + 2 ACKs. -/
theorem test_init_fails : nextHas (exec .init (fresh 26 [.nack])) (fun t =>
    decide (t.life = .failed ∧ t.sleeping = .unknown ∧ t.pin = .undriven ∧ t.status = 0x04#8 ∧ t.hist.length = 6 ∧
      t.hist.getLast? = some ⟨0x40#7, 0x12#8, [0, 0, 0, 0], .failAt 2⟩)) = true := by decide +kernel
/-- SD4 under HALF_EVEN and HALF_UP. -/
theorem test_setDuty_tie :
    nextHas (exec (.setDuty 0 0x800) asleep) (fun t => t.hist == [rec40 0x06#8 [0, 0, 0x00#8, 0x00#8]]) = true ∧
    nextHas (exec (.setDuty 0 0x800) { asleep with cfg := board .halfUp })
      (fun t => t.hist == [rec40 0x06#8 [0, 0, 0x01#8, 0x00#8]]) = true := by decide +kernel
/-- SD13 (a tie that reaches the clamp) and SD21. -/
theorem test_setDuty_clamp :
    nextHas (exec (.setDuty 15 0x00FFF800) awake) (fun t => t.hist == [rec40 0x42#8 [0, 0, 0xFF#8, 0x0F#8]] && t.status == 0x00#8) = true ∧
    nextHas (exec (.setDuty 16 0x02000000) awake) (fun t => t.hist == [] && t.status == 0x01#8) = true := by decide +kernel
/-- SR5. -/
theorem test_setDutyRaw : nextHas (exec (.setDutyRaw 1 466) awake)
    (fun t => t.hist == [rec40 0x0A#8 [0, 0, 0xD2#8, 0x01#8]] && t.status == 0x00#8) = true := by decide +kernel
/-- SR14 and SR12. -/
theorem test_setDutyRaw_errors : nextHas (exec (.setDutyRaw 255 (-1)) awake) (fun t => t.status == 0x02#8) = true ∧
    nextHas (exec (.setDutyRaw 3 (-2147483648)) awake) (fun t => t.status == 0x01#8) = true := by decide +kernel
/-- SF1 and SF3. -/
theorem test_setFreq : nextHas (exec (.setFreq 50) asleep) (fun t => t.hist == [rec40 0xFE#8 [0x79#8]]) = true ∧
    nextHas (exec (.setFreq 200) asleep) (fun t => t.hist == [rec40 0xFE#8 [0x1E#8]]) = true := by decide +kernel
/-- SF9, SF13, SF14. -/
theorem test_setFreq_errors : nextHas (exec (.setFreq 12208) asleep) (fun t => t.status == 0x01#8) = true ∧
    nextHas (exec (.setFreq 1) awake) (fun t => t.status == 0x03#8) = true ∧
    nextHas (exec (.setFreq 0) awake) (fun t => t.status == 0x01#8) = true := by decide +kernel
/-- SP4. -/
theorem test_setPrescaleRaw : nextHas (exec (.setPrescaleRaw 255) asleep) (fun t => t.hist == [rec40 0xFE#8 [0xFF#8]]) = true := by
  decide +kernel
/-- SP7 and SP11. -/
theorem test_setPrescaleRaw_errors : nextHas (exec (.setPrescaleRaw 256) asleep) (fun t => t.status == 0x01#8) = true ∧
    nextHas (exec (.setPrescaleRaw 256) awake) (fun t => t.status == 0x03#8) = true := by decide +kernel
/-- SS1. -/
theorem test_setSleep_wake : nextHas (exec (.setSleep false) asleep)
    (fun t => t.hist == [rec40 0x00#8 [0x44#8]] && t.sleeping == .awake) = true := by decide +kernel
/-- SS6. -/
theorem test_setSleep_fails : nextHas (exec (.setSleep true) { awake with answers := [.nack] })
    (fun t => t.hist == [⟨0x40#7, 0x00#8, [0x33#8], .failAt 0⟩] && t.sleeping == .awake && t.status == 0x04#8) = true := by
  decide +kernel
/-- RA1. -/
theorem test_resetAll : nextHas (exec .resetAll awake)
    (fun t => t.hist == [⟨0x00#7, 0x06#8, [], .ok⟩] && t.sleeping == .awake && t.status == 0x00#8) = true := by decide +kernel
/-- RA3. -/
theorem test_resetAll_fails : nextHas (exec .resetAll { awake with answers := [.nack] })
    (fun t => t.hist == [⟨0x00#7, 0x06#8, [], .failAt 0⟩] && t.status == 0x04#8) = true := by decide +kernel
/-- SH3. -/
theorem test_shutdown_fails : nextHas (exec .shutdown { awake with answers := [.ack, .ack, .nack] })
    (fun t => t.life == .shutdown && t.sleeping == .awake && t.pin == .low && t.status == 0x04#8) = true := by decide +kernel
/-- SH4. -/
theorem test_shutdown_from_failed : nextHas (exec .shutdown (block .failed .unknown .undriven (.replicate 3 .ack)))
    (fun t => t.life == .shutdown && t.sleeping == .asleep && t.pin == .undriven && t.hist == [rec40 0x00#8 [0x33#8]]) = true := by
  decide +kernel

/-! ### The bus primitive, the views, the host layer and the assembler -/

/-- B1 and B4: what goes out on the bus. -/
theorem test_wire :
    (transfer 0x40#7 0x0A#8 [0, 0, 0xD2#8, 0x01#8] { awake with answers := .replicate 6 .ack }).wire =
      [.start, .byte 0x80#8, .byte 0x0A#8, .byte 0x00#8, .byte 0x00#8, .byte 0xD2#8, .byte 0x01#8, .stop] ∧
    (transfer 0x40#7 0x0A#8 [0, 0, 0xD2#8, 0x01#8] { awake with answers := .replicate 4 .ack ++ [.nack] }).wire =
      [.start, .byte 0x80#8, .byte 0x0A#8, .byte 0x00#8, .byte 0x00#8, .byte 0xD2#8, .stop] := by decide +kernel
/-- B6 and B11. -/
theorem test_wire_err :
    transfer 0x40#7 0x0A#8 [0, 0, 0xD2#8, 0x01#8] { awake with answers := [.ack, .ack, .ack, .err true] } =
      ⟨some .failBus, [.start, .byte 0x80#8, .byte 0x0A#8, .byte 0x00#8, .incomplete 0x00#8, .stop], 4⟩ ∧
    (transfer 0x40#7 0x0A#8 [0, 0, 0xD2#8, 0x01#8] { awake with answers := [.ack, .ack, .never] }).outcome = none := by
  decide +kernel
/-- The image at the end of a bring-up (95 P1), and what a failed write leaves (B4, R88). -/
theorem test_image :
    onImage 0x40#7 [rec40 0x0A#8 [0, 0, 0xD2#8, 0x01#8], rec40 0x0A#8 [0, 0, 0x94#8, 0x00#8]] 1 = some 148 ∧
    chipRegister 0x40#7 [rec40 0xFE#8 [0x79#8], ⟨0x40#7, 0xFE#8, [0x1E#8], .failAt 2⟩] 0xFE#8 = .oneOf [0x1E#8, 0x79#8] ∧
    chipRegister 0x40#7 [rec40 0xFE#8 [0x79#8], ⟨0x00#7, 0x06#8, [], .ok⟩] 0xFE#8 = .unknown := by decide +kernel
/-- After RESET_ALL a channel write teaches nothing until MODE1 is written again (R179). -/
theorem test_autoIncrement :
    let reset : Txn := ⟨0x00#7, 0x06#8, [], .ok⟩
    let mode1 := rec40 0x00#8 [0x44#8]
    let duty := rec40 0x0A#8 [0, 0, 0xD2#8, 0x01#8]
    chipRegister 0x40#7 [mode1, duty] 0x0C#8 = .oneOf [0xD2#8] ∧ chipRegister 0x40#7 [mode1, reset, duty] 0x0C#8 = .unknown ∧
    chipRegister 0x40#7 [mode1, reset, mode1, duty] 0x0C#8 = .oneOf [0xD2#8] := by decide +kernel
/-- The table of R150. -/
theorem test_servo :
    setServoPercent .reference 0 = .setDuty 1 0x001D27D2 ∧ setServoPercent .reference (1 / 4) = .setDuty 1 0x00182D83 ∧
    setServoPercent .reference (1 / 2) = .setDuty 1 0x00133333 ∧ setServoPercent .reference 1 = .setDuty 1 0x00093E94 ∧
    setServoPercent .reference 2 = .setDuty 1 (-0xAAAAB) ∧ setServoPercent .reference (-100) = .setDuty 1 0x07E44444 ∧
    setServoAngle .reference 180 = .setDuty 1 0x00200000 := by decide +kernel
/-- Lines of 95 P3 and P4. -/
theorem test_assemble :
    assembleLines ["        SET_DUTY 16, 0x02000000     ; 0x0210_0000_0200_0000", "; host: if status = 0x04", "ZERO 7",
      "        .word64 0x0100000000000001  ; illegal"] =
      some [0x0210000002000000#64, 0x0307000000000000#64, 0x0100000000000001#64] ∧
    assembleLines ["SET_SLEEP 2"] = none ∧ assembleLines ["SET_DUTY_RAW 0, 0x80000000"] = none ∧
    assembleLines ["SET_DUTY 0, 0x80000000"] = some [0x0200000080000000#64] := by decide +kernel

/-! ### The host's fetch word, from reset -/

theorem test_withFetchWord_init : nextHas (step (State.reset.withFetchWord 64 0x0100000000000000))
    (fun t => t.life == .ready && t.status == 0x00#8 && decide (t.hist.length = 18) && t.inbox == []) = true := by decide +kernel
theorem test_withFetchWord_setDuty : nextHas (step (State.reset.withFetchWord 64 0x0200000000000000))
    (fun t => t.life == .uninit && t.status == 0x06#8) = true := by decide +kernel

/-! ### Witnesses: for each statement with hypotheses, concrete values that meet them together -/


theorem witness_DecodeOfEncode : (Instr.setDuty 255 (-2 ^ 31)).wellFormed = true ∧ (Instr.setFreq (2 ^ 32 - 1)).wellFormed = true := by decide
theorem witness_EncodeOfDecode : decode 0x03FF000080000000#64 = .ok (.setDutyRaw 255 (-2 ^ 31)) := by decide
theorem witness_OperandsAreTheWordsFields : (∃ i, decode 0x0100000000000000#64 = .ok i) ∧ (∃ i, decode 0x02FF00007FFFFFFF#64 = .ok i) ∧
    (∃ i, decode 0x03FF000080000000#64 = .ok i) ∧ (∃ i, decode 0x04000000FFFFFFFF#64 = .ok i) ∧ (∃ i, decode 0x0500000080000000#64 = .ok i) ∧
    (∃ i, decode 0x0600000000000001#64 = .ok i) ∧ (∃ i, decode 0x0700000000000000#64 = .ok i) ∧ (∃ i, decode 0x0800000000000000#64 = .ok i) :=
  ⟨⟨_, by rfl⟩, ⟨_, by rfl⟩, ⟨_, by rfl⟩, ⟨_, by rfl⟩, ⟨_, by rfl⟩, ⟨_, by rfl⟩, ⟨_, by rfl⟩, ⟨_, by rfl⟩⟩
theorem witness_IllegalWordsAreRefusedWhole : decode 0x0900000000000000#64 = .error .reservedOpcode ∧
    ({ awake with inbox := [.command 0x0900000000000000#64] } : State).inbox = .command 0x0900000000000000#64 :: [] := by decide
theorem witness_AssemblerSpellsLegalWords : assemble (.setDutyRaw 255 (-1)) = some 0x03FF0000FFFFFFFF#64 ∧
    (-2 ^ 31 ≤ roundNeRat (1 / 2 * 2 ^ 24) ∧ roundNeRat (1 / 2 * 2 ^ 24) < 2 ^ 31) ∧ 2 ^ 31 ≤ roundNeRat (128 * 2 ^ 24) ∧
    roundNeRat (-129 * 2 ^ 24) < -2 ^ 31 := by decide +kernel
theorem witness_ResetValues : ({ awake with inbox := [.reset] } : State).inbox = .reset :: [] := by decide
theorem witness_OnlyWellFormedConfigurationsRun :
    ¬ (0x01 ≤ (ConfigParams.mk 0 0 0 0 0 .halfUp 0).devAddr) ∧
    (0x01 ≤ (ConfigParams.mk 0x7F 255 255 255 255 .halfUp 0).devAddr ∧ (ConfigParams.mk 0x7F 255 255 255 255 .halfUp 0).devAddr ≤ 0x7F ∧
      (ConfigParams.mk 0x7F 255 255 255 255 .halfUp 0).mode1Init ≤ 0xFF) := by decide
theorem witness_StepRunsTheDecodedCommand : ({ awake with inbox := [.command 0x0700000000000000#64] } : State).inbox = .command 0x0700000000000000#64 :: [] ∧
    decode 0x0700000000000000#64 = .ok .resetAll ∧ awake.inbox = [] := by decide
theorem witness_StepsStopOnlyOnAHungBus :
    hangHas (step { awake with inbox := [.command 0x0700000000000000#64], answers := [.ack, .never] }) (fun t => t.hist == []) = true ∧
    hangHas (step { fresh 3 [.never] with inbox := [.command 0x0100000000000000#64] }) (fun t => t.hist == [rec40 0x00#8 [0x11#8]]) = true := by
  decide +kernel
theorem witness_TransactionFraming : ∀ k < 2 + [0x00#8, 0x00#8, 0xD2#8, 0x01#8].length,
    awake.answerAt 0x40#7 0x0A#8 [0x00#8, 0x00#8, 0xD2#8, 0x01#8] k = .ack := by decide +kernel

/-- INIT from UNINIT: all writes ACKed; and a FAIL or a hang of its last write, byte 5 of T17. -/
theorem witness_InitRunsItsSequence :
    (∃ t, AllAcked 0x40#7 (initWrites (board .halfEven)) (fresh 102 []) t) ∧
    (∃ t, AllAcked 0x40#7 ((initWrites (board .halfEven)).take 17) (fresh 101 [.nack]) t ∧
      (initWrites (board .halfEven))[17]? = some (0x42#8, [0, 0, 0, 0]) ∧ (BusEnding.nackAt 5).Fails ∧
      (BusEnding.nackAt 5).Happens 0x40#7 0x42#8 [0, 0, 0, 0] t) ∧
    (∃ t, AllAcked 0x40#7 ((initWrites (board .halfEven)).take 17) (fresh 101 [.never]) t ∧ (BusEnding.hangsAt 5).Hangs ∧
      (BusEnding.hangsAt 5).Happens 0x40#7 0x42#8 [0, 0, 0, 0] t) := by
  have last (x : BusAnswer) : ∃ t, AllAcked 0x40#7 ((initWrites (board .halfEven)).take 17) (fresh 101 [x]) t ∧
      t.answers = List.replicate 5 .ack ++ [x] :=
    allAcked_of_replicate (n := 101) rfl (by decide)
  refine ⟨?_, ?_, ?_⟩
  · obtain ⟨t, h, -⟩ := allAcked_of_replicate (a := 0x40#7) (ws := initWrites (board .halfEven)) (s := fresh 102 []) (n := 102)
      (rest := []) rfl (by decide)
    exact ⟨t, h⟩
  · obtain ⟨t, h, ha⟩ := last .nack
    refine ⟨t, h, by decide, trivial, by decide, ?_, by simp [State.answerAt, ha]⟩
    intro j hj
    interval_cases j <;> simp [State.answerAt, ha]
  · obtain ⟨t, h, ha⟩ := last .never
    refine ⟨t, h, trivial, by decide, ?_, by simp [State.answerAt, ha]⟩
    intro j hj
    interval_cases j <;> simp [State.answerAt, ha]

theorem witness_InitHasTwoResults : nextHas (exec .init (fresh 102 [])) (fun t => t.status == 0x00#8) = true ∧
    nextHas (exec .init (fresh 0 [.nack])) (fun t => t.status == 0x04#8) = true := by decide +kernel
theorem witness_InitZeroesLikeSetDuty : nextHas (exec .init (fresh 102 [])) (fun t => t.status == 0x00#8) = true ∧
    nextHas (exec (.setDuty 15 0) asleep) (fun t => t.status == 0x00#8) = true ∧ asleep.cfg = (fresh 102 []).cfg := by decide +kernel
theorem witness_InitFrame : nextHas (exec .init (fresh 102 [])) (fun _ => true) = true := by decide +kernel

/-- A write of one, none or four bytes to 0x40 or 0x00 is ACKed, NACKed and never answered in these three states. -/
theorem witness_endings : BusEnding.acked.Happens 0x40#7 0x42#8 [0, 0, 0xFF#8, 0x0F#8] awake ∧
    BusEnding.acked.Happens 0x40#7 0xFE#8 [0xFF#8] asleep ∧ BusEnding.acked.Happens 0x40#7 0x00#8 [0x33#8] awake ∧
    BusEnding.acked.Happens 0x00#7 0x06#8 [] awake ∧
    (BusEnding.nackAt 0).Happens 0x40#7 0x42#8 [0, 0, 0xFF#8, 0x0F#8] { awake with answers := [.nack] } ∧
    (BusEnding.hangsAt 1).Happens 0x40#7 0x42#8 [0, 0, 0xFF#8, 0x0F#8] { awake with answers := [.ack, .never] } ∧
    (BusEnding.errAt 2 false).Happens 0x40#7 0xFE#8 [0xFF#8] { asleep with answers := [.ack, .ack, .err false] } ∧
    (BusEnding.hangsAt 2).Happens 0x40#7 0xFE#8 [0xFF#8] { asleep with answers := [.ack, .ack, .never] } ∧
    (BusEnding.nackAt 1).Happens 0x00#7 0x06#8 [] { awake with answers := [.ack, .nack] } ∧
    (BusEnding.hangsAt 0).Happens 0x00#7 0x06#8 [] { awake with answers := [.never] } ∧
    (BusEnding.nackAt 2).Happens 0x40#7 0x00#8 [0x33#8] { awake with answers := [.ack, .ack, .nack] } ∧
    (BusEnding.hangsAt 0).Happens 0x40#7 0x00#8 [0x33#8] { awake with answers := [.never] } := by
  simp only [BusEnding.Happens, AckedBefore]
  decide +kernel

/-- SET_DUTY_RAW of channel 15: the hypotheses of its clauses at boundary values; its write is that of `witness_endings`. -/
theorem witness_SetDutyRawRule : awake.life = .ready ∧ 16 ≤ 16 ∧ (-1 : Int) < 0 ∧ (0 : Int) ≤ 0 ∧
    (BitVec.ofNat 8 (0x06 + 4 * 15) = 0x42#8 ∧
      [0x00#8, 0x00#8, BitVec.ofNat 8 (min (4096 : Int).toNat 4095 % 256), BitVec.ofNat 8 (min (4096 : Int).toNat 4095 / 256)] =
        [0, 0, 0xFF#8, 0x0F#8]) := by decide
/-- SET_DUTY of channel 15 at duty 1.0: its write is that of `witness_endings`, under either tie rule. -/
theorem witness_SetDutyRule : awake.life = .ready ∧ awake.cfg.dutyTie = .halfEven ∧ (2 ^ 24 : Int) < 2 ^ 24 + 1 ∧ (-1 : Int) < 0 ∧
    (0 : Int) ≤ 2 ^ 24 ∧ (2 ^ 24 : Int) / 4096 = 4096 ∧ (2 ^ 24 : Int) % 4096 = 0 ∧
    (board .halfUp).dutyTie = .halfUp ∧ (2 ^ 24 + 2048 : Int) / 4096 = 4096 ∧
    ({ awake with cfg := board .halfUp } : State).life = .ready ∧
    BusEnding.acked.Happens 0x40#7 0x42#8 [0, 0, 0xFF#8, 0x0F#8] { awake with cfg := board .halfUp } := by
  simp only [BusEnding.Happens, AckedBefore]
  decide +kernel
theorem witness_DutyErrorsInOrder :
    nextHas (execute 0x0200000100000000#64 awake) (fun t => (t.status == 0x05#8)) = true ∧
    nextHas (execute 0x0201000000000000#64 (fresh 0 [])) (fun t => (t.status == 0x06#8)) = true ∧
    nextHas (execute 0x0210000001000001#64 awake) (fun t => (t.status == 0x01#8)) = true ∧
    nextHas (execute 0x0210000001000000#64 awake) (fun t => (t.status == 0x02#8)) = true ∧
    nextHas (execute 0x020F000001000000#64 awake) (fun t => (t.status == 0x00#8)) = true ∧
    nextHas (execute 0x0300800000000000#64 awake) (fun t => (t.status == 0x05#8)) = true ∧
    nextHas (execute 0x0300000000000000#64 (fresh 0 [])) (fun t => (t.status == 0x06#8)) = true ∧
    nextHas (execute 0x0310000080000000#64 awake) (fun t => (t.status == 0x02#8)) = true ∧
    nextHas (execute 0x030F0000FFFFFFFF#64 awake) (fun t => (t.status == 0x01#8)) = true ∧
    nextHas (execute 0x030F000000000000#64 awake) (fun t => (t.status == 0x00#8)) = true := by decide +kernel
theorem witness_DutyCommandsFrame : nextHas (exec (.setDuty 15 0) awake) (fun t => t.hist != []) = true ∧
    nextHas (exec (.setDutyRaw 15 0) { awake with answers := [.nack] }) (fun t => t.hist != []) = true := by decide +kernel
theorem witness_ImageHoldsTheClampedCount : nextHas (exec (.setDutyRaw 15 5000) awake) (fun t => t.status == 0x00#8) = true := by decide +kernel
/-- A FAIL on a register known before and one unknown before, and an OK write with auto-increment on and one without. -/
theorem witness_SetDutyRawLeavesOldOrNew :
    let known : State := { awake with hist := [rec40 0x00#8 [0x44#8], rec40 0x42#8 [0, 0, 1, 0]] }
    nextHas (exec (.setDutyRaw 15 5000) { awake with answers := [.nack] }) (fun t => t.status == 0x04#8) = true ∧
    nextHas (exec (.setDutyRaw 15 5000) { known with answers := [.nack] }) (fun t => t.status == 0x04#8) = true ∧
    chipRegister 0x40#7 awake.hist 0x44#8 = .unknown ∧ chipRegister 0x40#7 known.hist 0x44#8 = .oneOf [1] ∧
    autoIncrement 0x40#7 known.hist = true ∧
    nextHas (exec (.setDutyRaw 15 5000) known) (fun t => t.status == 0x00#8) = true ∧
    autoIncrement 0x40#7 awake.hist = false ∧
    nextHas (exec (.setDutyRaw 15 5000) awake) (fun t => t.status == 0x00#8) = true := by decide +kernel
/-- BUS_ERROR in INIT, SET_DUTY, a MODE1 and a PRESCALE write, on registers known and unknown before; OK with
auto-increment on and off, and with one byte. -/
theorem witness_CommandWritesOnTheChip :
    let mode1 := rec40 0x00#8 [0x44#8]
    let known : State := { asleep with hist := [mode1, rec40 0xFE#8 [0x79#8]] }
    nextHas (exec .init (fresh 8 [.nack])) (fun t => t.status == 0x04#8) = true ∧
    nextHas (exec (.setDuty 15 0) { known with answers := [.nack] }) (fun t => t.status == 0x04#8) = true ∧
    nextHas (exec (.setSleep true) { known with answers := [.nack] }) (fun t => t.status == 0x04#8) = true ∧
    nextHas (exec (.setFreq 50) { known with answers := [.nack] }) (fun t => t.status == 0x04#8) = true ∧
    chipRegister 0x40#7 known.hist 0x00#8 = .oneOf [0x44] ∧ chipRegister 0x40#7 known.hist 0xFE#8 = .oneOf [0x79] ∧
    chipRegister 0x40#7 known.hist 0x42#8 = .unknown ∧
    autoIncrement 0x40#7 known.hist = true ∧ autoIncrement 0x40#7 asleep.hist = false ∧
    nextHas (exec (.setDuty 15 0) known) (fun t => t.status == 0x00#8) = true ∧
    nextHas (exec (.setDuty 15 0) asleep) (fun t => t.status == 0x00#8) = true ∧
    nextHas (exec (.setFreq 50) asleep) (fun t => t.status == 0x00#8) = true := by decide +kernel
theorem witness_OkWritesMakeTheChipKnown :
    nextHas (exec .init (fresh 102 [])) (fun t => t.status == 0x00#8 &&
      (List.range 64).all fun k => chipRegister 0x40#7 t.hist (BitVec.ofNat 8 (6 + k)) == .oneOf [0]) = true ∧
    nextHas (exec (.setSleep false) asleep) (fun t => t.status == 0x00#8) = true ∧
    nextHas (exec (.setFreq 24) asleep) (fun t => t.status == 0x00#8) = true ∧
    nextHas (exec (.setPrescaleRaw 255) asleep) (fun t => t.status == 0x00#8) = true ∧
    nextHas (exec .shutdown asleep) (fun t => t.status == 0x00#8) = true := by decide +kernel
theorem witness_AutoIncrementFollowsMode1 :
    nextHas (exec .init (fresh 102 [])) (fun t => t.status == 0x00#8) = true ∧
    nextHas (exec .init (fresh 3 [.nack])) (fun t => t.status == 0x04#8) = true ∧
    nextHas (exec (.setSleep true) awake) (fun t => t.status == 0x00#8) = true ∧
    nextHas (exec .resetAll awake) (fun t => t.status == 0x00#8) = true ∧
    nextHas (exec .shutdown { awake with answers := [.nack] }) (fun t => t.status == 0x04#8) = true ∧
    nextHas (exec (.setDutyRaw 15 0) awake) (fun t => t.status == 0x00#8) = true := by decide +kernel
theorem witness_RoundingIsToNearest : 0 < 4096 ∧
    2 * (0x800 - roundDiv .halfEven 0x800 4096 * 4096) = 4096 ∧ 2 * (0x800 - roundDiv .halfUp 0x800 4096 * 4096) = -4096 := by decide
/-- SET_PRESCALE_RAW at the ends of its range; its write at 255 is that of `witness_endings`. -/
theorem witness_SetPrescaleRawRule : asleep.life = .ready ∧ asleep.sleeping = .asleep ∧ awake.sleeping ≠ .asleep ∧
    (2 : Int) < 3 ∧ (255 : Int) < 256 ∧ ((0xFF#8).toNat : Int) = 255 := by decide
/-- SET_FREQ at 0, at 23, 24, 1743 and 1744 Hz. -/
theorem witness_SetFreqRule : asleep.sleeping = .asleep ∧ awake.sleeping ≠ .asleep ∧
    255 < (25000000 + 2048 * (23 : Int)) / (4096 * 23) - 1 ∧ (25000000 + 2048 * (24 : Int)) / (4096 * 24) - 1 ≤ 255 ∧
    3 ≤ (25000000 + 2048 * (1743 : Int)) / (4096 * 1743) - 1 ∧ (25000000 + 2048 * (1744 : Int)) / (4096 * 1744) - 1 < 3 ∧
    nextHas (exec (.setFreq 24) asleep) (fun t => t.status == 0x00#8) = true := by decide +kernel
theorem witness_AcceptedFrequencies : nextHas (exec (.setFreq 24) asleep) (fun t => t.status == 0x00#8) = true ∧
    nextHas (exec (.setFreq 0) asleep) (fun t => t.status == 0x01#8) = true ∧
    nextHas (exec (.setFreq 1744) asleep) (fun t => t.status == 0x01#8) = true := by decide +kernel
/-- SET_SLEEP 1 writes what `witness_endings` shows for 0x33; SET_SLEEP 0 writes 0x44, shown here. -/
theorem witness_SetSleepRule : awake.life = .ready ∧ (if true then awake.cfg.mode1Sleep else awake.cfg.mode1Wake) = 0x33#8 ∧
    (if false then awake.cfg.mode1Sleep else awake.cfg.mode1Wake) = 0x44#8 ∧
    BusEnding.acked.Happens 0x40#7 0x00#8 [0x44#8] awake ∧
    (BusEnding.nackAt 2).Happens 0x40#7 0x00#8 [0x44#8] { awake with answers := [.ack, .ack, .nack] } ∧
    (BusEnding.hangsAt 0).Happens 0x40#7 0x00#8 [0x44#8] { awake with answers := [.never] } := by
  simp only [BusEnding.Happens, AckedBefore]
  decide +kernel
theorem witness_TimingErrorsInOrder :
    nextHas (execute 0x0500010000000079#64 asleep) (fun t => (t.status == 0x05#8)) = true ∧
    nextHas (execute 0x0500000000000100#64 awake) (fun t => (t.status == 0x03#8)) = true ∧
    nextHas (execute 0x0500000000000100#64 asleep) (fun t => (t.status == 0x01#8)) = true ∧
    nextHas (execute 0x05000000000000FF#64 asleep) (fun t => (t.status == 0x00#8)) = true ∧
    nextHas (execute 0x0400000000000000#64 awake) (fun t => (t.status == 0x01#8)) = true ∧
    nextHas (execute 0x0400000000000001#64 awake) (fun t => (t.status == 0x03#8)) = true ∧
    nextHas (execute 0x04000000000006D0#64 asleep) (fun t => (t.status == 0x01#8)) = true ∧
    nextHas (execute 0x04000000000006CF#64 asleep) (fun t => (t.status == 0x00#8)) = true ∧
    nextHas (execute 0x0600000000000002#64 asleep) (fun t => (t.status == 0x05#8)) = true ∧
    nextHas (execute 0x0600000000000001#64 (fresh 0 [])) (fun t => (t.status == 0x06#8)) = true ∧
    nextHas (execute 0x0600000000000001#64 asleep) (fun t => (t.status == 0x00#8)) = true := by decide +kernel
theorem witness_PrescaleCommandsFrame : nextHas (exec (.setFreq 50) asleep) (fun t => t.hist != []) = true ∧
    nextHas (exec (.setPrescaleRaw 3) asleep) (fun t => t.hist != []) = true := by decide +kernel
theorem witness_ModeCommandsFrame : nextHas (exec (.setSleep false) asleep) (fun t => t.hist != []) = true ∧
    nextHas (exec .shutdown awake) (fun t => t.hist != []) = true := by decide +kernel
theorem witness_NoPrescaleWriteWhileAwake : awake.sleeping ≠ .asleep ∧
    nextHas (execute 0x0600000000000001#64 awake) (fun t => t.hist != []) = true ∧
    hangHas (execute 0x0100000000000000#64 (fresh 3 [.never])) (fun t => t.hist != []) = true := by decide +kernel
theorem witness_ResetAllRule : awake.life = .ready := by decide
theorem witness_ResetAllFrame : nextHas (exec .resetAll awake) (fun t => t.status == 0x00#8) = true := by decide +kernel
theorem witness_ShutdownRule : awake.life = .ready ∧ [awake.cfg.mode1Sleep] = [0x33#8] ∧
    (block .failed .unknown .undriven []).life = .failed := by decide
theorem witness_ShutdownIsFinal : (block .shutdown .asleep .low []).life = .shutdown ∧
    nextHas (step { block .shutdown .asleep .low [] with inbox := [.reset] }) (fun t => (t.life == .uninit)) = true ∧
    (∃ i, decode 0x0201000000000000#64 = .ok i) ∧ (∃ e, decode 0x0000000000000000#64 = .error e) ∧
    awake.life = .ready ∧ awake.sleeping = .awake :=
  ⟨rfl, by decide +kernel, ⟨_, by rfl⟩, ⟨_, by rfl⟩, rfl, rfl⟩
theorem witness_LifecycleAcceptance : nextHas (exec .init asleep) (fun t => t.status == 0x06#8) = true ∧
    nextHas (exec .shutdown (fresh 0 [])) (fun t => t.status == 0x06#8) = true ∧ nextHas (exec .resetAll awake) (fun t => t.status == 0x00#8) = true := by decide +kernel
/-- A word that finishes OK, one that finishes BUS_ERROR, and one that fails a check, all with `execute`. -/
theorem witness_FailuresLeaveNothingHalfDone :
    nextHas (execute 0x0100000000000000#64 (fresh 26 [.nack])) (fun t => (t.status == 0x04#8)) = true ∧
    nextHas (execute 0x0800000000000000#64 { awake with answers := [.nack] }) (fun t => (t.status == 0x04#8)) = true ∧
    nextHas (execute 0x0500000000000079#64 awake) (fun t => (t.status == 0x03#8)) = true := by decide +kernel
theorem witness_OkMeansEveryTransactionOk : nextHas (execute 0x0100000000000000#64 (fresh 102 [])) (fun t => t.status == 0x00#8) = true := by decide +kernel
theorem witness_CodesACommandCanReturn : nextHas (exec .init (fresh 102 [])) (fun _ => true) = true ∧ nextHas (exec (.setDuty 16 0) awake) (fun _ => true) = true ∧
    nextHas (exec (.setDutyRaw 16 0) awake) (fun _ => true) = true ∧ nextHas (exec (.setFreq 0) awake) (fun _ => true) = true ∧
    nextHas (exec (.setPrescaleRaw 3) awake) (fun _ => true) = true ∧ nextHas (exec (.setSleep true) awake) (fun _ => true) = true ∧
    nextHas (exec .resetAll awake) (fun _ => true) = true ∧ nextHas (exec .shutdown awake) (fun _ => true) = true := by decide +kernel
theorem witness_StatusIsNotSticky : nextHas (execute 0x0700000000000000#64 { awake with status := 0x05#8 }) (fun t => t.status == 0x00#8) = true := by decide +kernel
theorem witness_LifeChangesOnlyByInitAndShutdown : nextHas (exec .init (fresh 102 [])) (fun t => t.life != .uninit) = true ∧
    nextHas (exec .init (fresh 0 [.nack])) (fun t => t.life != .uninit) = true ∧ nextHas (exec .shutdown awake) (fun t => t.life != .ready) = true := by decide +kernel
theorem witness_MirrorAndPinWriters : nextHas (exec .init (fresh 102 [])) (fun t => t.sleeping != .unknown && t.pin != .undriven) = true ∧
    nextHas (exec (.setSleep false) asleep) (fun t => t.sleeping != .asleep) = true := by decide +kernel
theorem witness_HistoryOnlyGrows : nextHas (exec .init (fresh 102 [])) (fun t => t.hist != []) = true ∧
    hangHas (exec .init (fresh 3 [.never])) (fun t => t.hist != []) = true := by decide +kernel
theorem witness_ConfigurationIsFixed : nextHas (step { awake with inbox := [.reset] }) (fun _ => true) = true ∧
    nextHas (exec .resetAll awake) (fun _ => true) = true := by decide +kernel
theorem witness_BusTimingHasNoEffect : nextHas (step { awake with inbox := [.command 0x0700000000000000#64] }) (fun _ => true) = true ∧
    hangHas (step { awake with inbox := [.command 0x0700000000000000#64], answers := [.never] }) (fun _ => true) = true := by decide +kernel
theorem witness_StepKeepsInvariant : { awake with inbox := [.command 0x0700000000000000#64] }.Inv ∧
    nextHas (step { awake with inbox := [.command 0x0700000000000000#64] }) (fun t => t.hist != []) = true :=
  ⟨⟨by simp [LifeConsistent, awake, block], by decide, by simp [awake, block], by decide⟩, by decide +kernel⟩
theorem witness_ProperEndLeavesShutdown : EndsProperly [0x0700000000000000#64, 0x0800000000000000#64] awake :=
  ⟨⟨[0x0700000000000000#64], rfl, by decide⟩,
    let ⟨t, h, _⟩ := nextHas_iff (P := fun _ => true) |>.mp (by decide +kernel); ⟨t, h⟩⟩
theorem witness_IntegerAnglesQuantizeExactly : -230400 ≤ (-230445 : Int) + 45 ∧ (230354 : Int) + 45 < 230400 := by decide
theorem witness_PrescaleNeverTies : 1 ≤ 1 := by decide

end Sys2Proof.Tests
end

/-! The word's fields as operand values, construction, rounding, and what no step changes or reads (spec 00_scope). -/

namespace Sys2Proof.Machine

/-! ### Operands (R12, R62) -/

/-- OPD in two's complement, as a number of the word (R12). -/
theorem fieldOpd_toInt (w : CmdWord) :
    (fieldOpd w).toInt =
      if w.toNat % 2 ^ 32 < 2 ^ 31 then ((w.toNat % 2 ^ 32 : Nat) : Int)
      else ((w.toNat % 2 ^ 32 : Nat) : Int) - 2 ^ 32 := by
  rw [BitVec.toInt_eq_toNat_cond, fieldOpd_toNat]
  split_ifs <;> omega

theorem fieldOpd_bit0_iff (w : CmdWord) : (fieldOpd w).getLsbD 0 = true ↔ w.toNat % 2 ^ 32 % 2 = 1 := by
  rw [BitVec.getLsbD, fieldOpd_toNat, Nat.testBit_zero, decide_eq_true_eq]

/-- Settles O5: `decode_ok_cases` gives opcode and operands as fields, the field lemmas give those as numbers. -/
theorem operandsAreTheWordsFields : Obligations.OperandsAreTheWordsFields := by
  intro w i h
  obtain ⟨-, hcases⟩ := decode_ok_cases h
  rw [fieldOpc_toNat, fieldCh_toNat, fieldOpd_toNat, fieldOpd_toInt] at hcases
  rcases hcases with ⟨ho, rfl, -⟩ | ⟨ho, rfl⟩ | ⟨ho, rfl⟩ | ⟨ho, rfl, -⟩ | ⟨ho, rfl, -⟩ | ⟨ho, rfl, -⟩ |
    ⟨ho, rfl, -⟩ | ⟨ho, rfl, -⟩
  · exact ho
  · exact ⟨ho, rfl, rfl⟩
  · exact ⟨ho, rfl, rfl⟩
  · exact ⟨ho, rfl⟩
  · exact ⟨ho, rfl⟩
  · exact ⟨ho, fieldOpd_bit0_iff w⟩
  · exact ho
  · exact ho

/-! ### Construction (R9) -/

theorem configParams_wellFormed_iff (p : ConfigParams) :
    p.wellFormed = true ↔
      0x01 ≤ p.devAddr ∧ p.devAddr ≤ 0x7F ∧ p.mode1Init ≤ 0xFF ∧ p.mode2Init ≤ 0xFF ∧
        p.mode1Sleep ≤ 0xFF ∧ p.mode1Wake ≤ 0xFF := by
  simp only [ConfigParams.wellFormed, Bool.and_eq_true, decide_eq_true_eq, and_assoc]

theorem configOf_of_not_wellFormed {p : ConfigParams} (h : ¬ p.wellFormed = true) : configOf p = none := dif_neg h

/-- The configuration of well-formed parameters: each one narrowed to its width. -/
theorem configOf_of_wellFormed {p : ConfigParams} (h : p.wellFormed = true) :
    ∃ c : Config, configOf p = some c ∧ c.devAddr.addr = BitVec.ofNat 7 p.devAddr ∧
      c.mode1Init = u8 p.mode1Init ∧ c.mode2Init = u8 p.mode2Init ∧ c.mode1Sleep = u8 p.mode1Sleep ∧
      c.mode1Wake = u8 p.mode1Wake ∧ c.dutyTie = p.dutyTie ∧ c.busTiming = p.busTiming :=
  ⟨_, dif_pos h, rfl, rfl, rfl, rfl, rfl, rfl, rfl⟩

/-- `u8` keeps the value of a number that is a byte. -/
theorem u8_toNat_of_le {n : Nat} (h : n ≤ 0xFF) : (u8 n).toNat = n :=
  Nat.mod_eq_of_lt (by omega)

/-- Settles O9: `wellFormed` is R9's ranges, and in these ranges no parameter loses a bit when it is narrowed. -/
theorem onlyWellFormedConfigurationsRun : Obligations.OnlyWellFormedConfigurationsRun := by
  intro p
  refine ⟨fun hbad => ?_, fun hok => ?_⟩
  · rw [construct, configOf_of_not_wellFormed (mt (configParams_wellFormed_iff p).mp hbad)]
  · obtain ⟨c, hc, ha, h1, h2, hs, hw, ht, hb⟩ := configOf_of_wellFormed ((configParams_wellFormed_iff p).mpr hok)
    obtain ⟨-, hdev, hm1, hm2, hms, hmw⟩ := hok
    refine ⟨c, by rw [construct, hc], ?_, ?_, ?_, ?_, ?_, ht, hb⟩
    · rw [ha, BitVec.toNat_ofNat, Nat.mod_eq_of_lt (by omega)]
    · rw [h1, u8_toNat_of_le hm1]
    · rw [h2, u8_toNat_of_le hm2]
    · rw [hs, u8_toNat_of_le hms]
    · rw [hw, u8_toNat_of_le hmw]

/-! ### Rounding (R13) -/

/-- The value of a tie between `q` and `q + 1` (R13). -/
def tieValue (tie : Tie) (q : Int) : Int :=
  match tie with
  | .halfEven => if q % 2 = 0 then q else q + 1
  | .halfUp   => q + 1

theorem tieValue_halfEven_even (q : Int) : tieValue .halfEven q % 2 = 0 := by
  rw [tieValue]
  split_ifs <;> omega

theorem tieValue_eq_or (tie : Tie) (q : Int) : tieValue tie q = q ∨ tieValue tie q = q + 1 := by
  cases tie with
  | halfEven => exact ite_eq_or_eq _ _ _
  | halfUp => exact .inr rfl

/-- Rounding by the remainder of the division: down below one half, up above it, by the tie rule at it. -/
theorem roundDiv_cases (tie : Tie) (num : Int) {den : Nat} (hden : 0 < den) :
    ∃ q r : Int, num = q * den + r ∧ 0 ≤ r ∧ r < den ∧
      ((2 * r < den ∧ roundDiv tie num den = q) ∨ (den < 2 * r ∧ roundDiv tie num den = q + 1) ∨
        (2 * r = den ∧ roundDiv tie num den = tieValue tie q)) := by
  have hpos : (0 : Int) < den := by exact_mod_cast hden
  refine ⟨num / den, num % den, (Int.ediv_mul_add_emod num den).symm, Int.emod_nonneg _ hpos.ne',
    Int.emod_lt_of_pos _ hpos, ?_⟩
  rcases lt_trichotomy (2 * (num % den)) (den : Int) with h | h | h
  · exact .inl ⟨h, if_pos h⟩
  · exact .inr (.inr ⟨h, (if_neg h.not_lt).trans (if_neg h.not_gt)⟩)
  · exact .inr (.inl ⟨h, (if_neg h.not_gt).trans (if_pos h)⟩)

/-- Settles O23: with `num = q * den + r`, the distance to the rounded value is `r` or `r - den`. -/
theorem roundingIsToNearest : Obligations.RoundingIsToNearest := by
  intro tie num den hden n
  obtain ⟨q, r, hnum, h0, hlt, hcases⟩ := roundDiv_cases tie num hden
  have hup : (q + 1) * (den : Int) = q * den + den := by ring
  rcases hcases with ⟨h, (hn : n = q)⟩ | ⟨h, (hn : n = q + 1)⟩ | ⟨h, (hn : n = tieValue tie q)⟩
  · rw [hn]
    exact ⟨by omega, by omega, fun htie => by omega⟩
  · rw [hn, hup]
    exact ⟨by omega, by omega, fun htie => by omega⟩
  · have hdist : 2 * (num - n * den) = den ∨ 2 * (num - n * den) = -(den : Int) := by
      rcases tieValue_eq_or tie q with hq | hq <;> rw [hn, hq]
      · omega
      · rw [hup]; omega
    refine ⟨by omega, by omega, fun _ => ?_⟩
    cases tie with
    | halfEven => exact hn ▸ tieValue_halfEven_even q
    | halfUp =>
      have hgreater : n * (den : Int) = q * den + den := by rw [hn]; exact hup
      show num < n * (den : Int)
      omega

/-! ### What no command changes (R7) -/

/-- The configuration, the host's later events and the reset count are those of `s`. -/
def SameSetting (s t : State) : Prop := t.cfg = s.cfg ∧ t.inbox = s.inbox ∧ t.era = s.era

theorem allAcked_sameSetting {a : Addr7} {ws : List (Byte × List Byte)} {s t : State} (h : AllAcked a ws s t) :
    SameSetting s t := by
  obtain ⟨ht, -⟩ := allAcked_effect h
  rw [ht]
  exact ⟨rfl, rfl, rfl⟩

theorem exec_sameSetting {i : Instr} {s t : State} (h : exec i s = .next t) : SameSetting s t := by
  by_cases hi : i = .init
  · subst hi
    rcases exec_init_next_cases h with ⟨-, rfl⟩ | ⟨-, u, hu, rfl⟩ | ⟨-, j, w, u, e, -, hu, -, -, rfl⟩
    · exact ⟨rfl, rfl, rfl⟩
    · obtain ⟨hcfg, hinbox, hera⟩ := allAcked_sameSetting hu
      exact ⟨hcfg, hinbox, hera⟩
    · obtain ⟨hcfg, hinbox, hera⟩ := allAcked_sameSetting hu
      exact ⟨hcfg, hinbox, hera⟩
  · rcases exec_next_cases hi h with ⟨-, rfl⟩ | ⟨-, c, -, rfl⟩ | ⟨-, a, r, p, -, -, rfl⟩ | ⟨-, a, r, p, e, -, -, -, rfl⟩ <;>
      exact ⟨rfl, rfl, rfl⟩

theorem execute_sameSetting {w : CmdWord} {s t : State} (h : execute w s = .next t) : SameSetting s t := by
  cases hd : decode w with
  | ok i =>
    rw [execute_of_decode hd] at h
    exact exec_sameSetting h
  | error e =>
    rw [execute_of_illegal hd] at h
    injection h with h
    subst h
    exact ⟨rfl, rfl, rfl⟩

theorem step_cfg {s t : State} (h : step s = .next t) : t.cfg = s.cfg := by
  rcases hin : s.inbox with _ | ⟨w | _, rest⟩
  · rw [step_of_idle hin] at h
    injection h with h
    rw [h]
  · rw [step_of_command hin] at h
    obtain ⟨hcfg, -, -⟩ := execute_sameSetting h
    exact hcfg
  · rw [step_of_reset hin] at h
    injection h with h
    subst h
    rfl

/-- Settles O45: no ending of a command touches the three fields, and a restart keeps the configuration. -/
theorem configurationIsFixed : Obligations.ConfigurationIsFixed :=
  ⟨fun _ _ => step_cfg, fun _ _ _ => exec_sameSetting⟩

/-! ### BUS_TIMING (R91) -/

/-- The state with another BUS_TIMING. -/
def State.retime (n : Nat) (s : State) : State := { s with cfg := { s.cfg with busTiming := n } }

/-- An answer with another BUS_TIMING in the state it carries. -/
def retimeResult (n : Nat) : StepResult → StepResult
  | .next t                     => .next (t.retime n)
  | .fault (.busNeverAnswers t) => .fault (.busNeverAnswers (t.retime n))
  | .refused r                  => .refused r

/-- Running from a state with another BUS_TIMING answers the same but for that parameter. -/
def IgnoresTiming (n : Nat) (run : State → StepResult) : Prop :=
  ∀ s, run (s.retime n) = retimeResult n (run s)

section
variable {n : Nat}

theorem finish_ignoresTiming (c : StatusCode) : IgnoresTiming n (finish c) := fun _ => rfl

theorem raise_ignoresTiming (c : StatusCode) : IgnoresTiming n (raise c) := fun _ => rfl

/-- A choice by a condition that does not look at BUS_TIMING. -/
theorem ite_ignoresTiming {c : State → Prop} [DecidablePred c] {yes no : State → StepResult}
    (hc : ∀ s, c (s.retime n) ↔ c s) (hyes : IgnoresTiming n yes) (hno : IgnoresTiming n no) :
    IgnoresTiming n (fun s => if c s then yes s else no s) := by
  intro s
  by_cases h : c s
  · simpa [h, hc s] using hyes s
  · simpa [h, hc s] using hno s

theorem ifAccepted_ignoresTiming {i : Instr} {run : State → StepResult} (h : IgnoresTiming n run) :
    IgnoresTiming n (ifAccepted i run) :=
  ite_ignoresTiming (fun _ => Iff.rfl) h (raise_ignoresTiming _)

/-- The bus answers a write the same whatever BUS_TIMING is: its answers depend on the history and the era. -/
theorem busWriteThen_ignoresTiming {onOk onFail : State → StepResult} (hok : IgnoresTiming n onOk)
    (hfail : IgnoresTiming n onFail) (a : Addr7) (r : Byte) (p : List Byte) :
    IgnoresTiming n (busWriteThen a r p onOk onFail) := by
  intro s
  have happens {e : BusEnding} (h : e.Happens a r p s) : e.Happens a r p (s.retime n) := by
    cases e <;> exact h
  rcases busWriteThen_cases a r p onOk onFail s with ⟨h, e⟩ | ⟨en, hf, h, e⟩ | ⟨en, hh, h, e⟩
  · rw [e, busWriteThen_of_acked (happens h)]
    exact hok (BusEnding.acked.after a r p s)
  · rw [e, busWriteThen_of_fails (happens h) hf]
    exact hfail (en.after a r p s)
  · rw [e, busWriteThen_of_hangs (happens h) hh]
    rfl

theorem writeAndFinish_ignoresTiming (a : Addr7) (r : Byte) (p : List Byte) :
    IgnoresTiming n (writeAndFinish a r p) :=
  busWriteThen_ignoresTiming (finish_ignoresTiming _) (raise_ignoresTiming _) a r p

theorem setDutyRaw_ignoresTiming (ch : Nat) (v : Int) : IgnoresTiming n (setDutyRaw ch v) :=
  ite_ignoresTiming (fun _ => Iff.rfl) (raise_ignoresTiming _) <|
    ite_ignoresTiming (fun _ => Iff.rfl) (raise_ignoresTiming _) fun s => writeAndFinish_ignoresTiming s.dev _ _ s

theorem setDuty_ignoresTiming (ch : Nat) (d : Int) : IgnoresTiming n (setDuty ch d) :=
  ite_ignoresTiming (fun _ => Iff.rfl) (raise_ignoresTiming _) fun s =>
    setDutyRaw_ignoresTiming ch (onCyclesOf s.cfg.dutyTie d) s

theorem setPrescaleRaw_ignoresTiming (v : Int) : IgnoresTiming n (setPrescaleRaw v) :=
  ite_ignoresTiming (fun _ => Iff.rfl) (raise_ignoresTiming _) <|
    ite_ignoresTiming (fun _ => Iff.rfl) (raise_ignoresTiming _) fun s => writeAndFinish_ignoresTiming s.dev _ _ s

theorem setFreq_ignoresTiming (hz : Nat) : IgnoresTiming n (setFreq hz) :=
  ite_ignoresTiming (fun _ => Iff.rfl) (raise_ignoresTiming _) (setPrescaleRaw_ignoresTiming _)

theorem setSleep_ignoresTiming (sl : Bool) : IgnoresTiming n (setSleep sl) :=
  fun s => busWriteThen_ignoresTiming (fun _ => rfl) (raise_ignoresTiming _) s.dev regMode1 [sleepByte sl s.cfg] s

theorem resetAll_ignoresTiming : IgnoresTiming n resetAll :=
  writeAndFinish_ignoresTiming resetAddr resetReg []

theorem shutdown_ignoresTiming : IgnoresTiming n shutdown :=
  fun s => busWriteThen_ignoresTiming (fun _ => rfl) (fun _ => rfl) s.dev regMode1 [s.cfg.mode1Sleep] s

theorem initSequence_ignoresTiming (ws : List (Byte × List Byte)) : IgnoresTiming n (initSequence ws) := by
  induction ws with
  | nil => exact fun _ => rfl
  | cons w ws ih =>
    obtain ⟨r, p⟩ := w
    exact fun s => busWriteThen_ignoresTiming ih (fun _ => rfl) s.dev r p s

theorem exec_ignoresTiming (i : Instr) : IgnoresTiming n (exec i) := by
  cases i with
  | init => exact ifAccepted_ignoresTiming fun s => initSequence_ignoresTiming (initWrites s.cfg) s
  | setDuty ch d => exact ifAccepted_ignoresTiming (setDuty_ignoresTiming ch d)
  | setDutyRaw ch v => exact ifAccepted_ignoresTiming (setDutyRaw_ignoresTiming ch v)
  | setFreq hz => exact ifAccepted_ignoresTiming (setFreq_ignoresTiming hz)
  | setPrescaleRaw v => exact ifAccepted_ignoresTiming (setPrescaleRaw_ignoresTiming v)
  | setSleep sl => exact ifAccepted_ignoresTiming (setSleep_ignoresTiming sl)
  | resetAll => exact ifAccepted_ignoresTiming resetAll_ignoresTiming
  | shutdown => exact ifAccepted_ignoresTiming shutdown_ignoresTiming

theorem execute_ignoresTiming (w : CmdWord) : IgnoresTiming n (execute w) := by
  intro s
  cases hd : decode w with
  | ok i =>
    rw [execute_of_decode hd, execute_of_decode hd]
    exact exec_ignoresTiming i s
  | error e =>
    rw [execute_of_illegal hd, execute_of_illegal hd]
    rfl

theorem step_ignoresTiming : IgnoresTiming n step := by
  intro s
  rcases hin : s.inbox with _ | ⟨w | _, rest⟩
  · rw [step_of_idle hin, step_of_idle (s := s.retime n) hin]
    rfl
  · rw [step_of_command hin, step_of_command (s := s.retime n) hin]
    exact execute_ignoresTiming w { s with inbox := rest }
  · rw [step_of_reset hin, step_of_reset (s := s.retime n) hin]
    rfl

end

/-- Settles O46: a step commutes with a change of BUS_TIMING, since every operation it is made of does. -/
theorem busTimingHasNoEffect : Obligations.BusTimingHasNoEffect := by
  intro s n
  have answers {o : StepResult} (h : step s = o) : step (s.retime n) = retimeResult n o := h ▸ step_ignoresTiming s
  exact ⟨fun _ h => answers h, fun _ h => answers h⟩

end Sys2Proof.Machine

/-! What a command does, INIT and the others alike: the writes it issues and the three ways it finishes (spec 10_state
R29, R51; 41_init R94). -/

namespace Sys2Proof.Machine

variable {i : Instr} {s t : State} {a : Addr7} {ws : List (Byte × List Byte)}

/-! ### The writes of a command -/

/-- The writes an accepted command issues, in order and all to one device: INIT's eighteen, or its one (R49, R94). -/
def WritesOf (s : State) (a : Addr7) (ws : List (Byte × List Byte)) (i : Instr) : Prop :=
  (i = .init ∧ a = s.dev ∧ ws = initWrites s.cfg) ∨ ∃ r p, WriteOf s a r p i ∧ ws = [(r, p)]

theorem writesOf_init : WritesOf s s.dev (initWrites s.cfg) .init := .inl ⟨rfl, rfl, rfl⟩

theorem WriteOf.writesOf {r : Byte} {p : List Byte} (h : WriteOf s a r p i) : WritesOf s a [(r, p)] i :=
  .inr ⟨r, p, h, rfl⟩

theorem WritesOf.of_init (h : WritesOf s a ws .init) : a = s.dev ∧ ws = initWrites s.cfg := by
  rcases h with ⟨-, ha, hws⟩ | ⟨r, p, hw, -⟩
  · exact ⟨ha, hws⟩
  · exact hw.elim

theorem WritesOf.of_ne_init (hi : i ≠ .init) (h : WritesOf s a ws i) : ∃ r p, WriteOf s a r p i ∧ ws = [(r, p)] := by
  rcases h with ⟨rfl, -⟩ | h
  · exact absurd rfl hi
  · exact h

theorem WritesOf.length_le (h : WritesOf s a ws i) : ws.length ≤ if i = .init then 18 else 1 := by
  rcases h with ⟨rfl, -, rfl⟩ | ⟨r, p, hw, rfl⟩
  · exact (initWrites_length s.cfg).le
  · split_ifs <;> simp

theorem mem_initWrites_iff {c : Config} {w : Byte × List Byte} :
    w ∈ initWrites c ↔
      w = (regMode1, [c.mode1Init]) ∨ w = (regMode2, [c.mode2Init]) ∨ ∃ n < 16, w = (channelReg n, channelPayload 0) := by
  simp [initWrites, eq_comm]

theorem channelReg_toNat {ch : Nat} (h : ch < 16) : (channelReg ch).toNat = 0x06 + 4 * ch :=
  Nat.mod_eq_of_lt (by simp only [regLedBase, channelStride]; omega)

/-- `u8` narrows by itself: the low byte of a count need not be cut out first (R12, R45). -/
theorem channelPayload_eq (c : Nat) :
    channelPayload c = [0x00#8, 0x00#8, BitVec.ofNat 8 (c % 256), BitVec.ofNat 8 (c / 256)] := by
  have : BitVec.ofNat 8 c = BitVec.ofNat 8 (c % 256) := BitVec.eq_of_toNat_eq (by simp)
  simp [channelPayload, u8, this]

/-! ### The form of a write (R71) -/

theorem hasForm_channel {ch c : Nat} (cfg : Config) (hch : ch < 16) (hc : c ≤ 4095) (o : TxnOutcome) :
    HasForm cfg ⟨cfg.devAddr.addr, channelReg ch, channelPayload c, o⟩ :=
  .inr (.inr (.inl ⟨rfl, ch, hch, c, hc, rfl, channelPayload_eq c⟩))

theorem hasForm_prescale {v : Int} (cfg : Config) (h3 : 3 ≤ v) (h255 : v ≤ 255) (o : TxnOutcome) :
    HasForm cfg ⟨cfg.devAddr.addr, regPrescale, [u8 v.toNat], o⟩ :=
  .inr (.inr (.inr (.inl ⟨rfl, rfl, v.toNat, by omega, by omega, rfl⟩)))

theorem clampOn_le (n : Int) : clampOn n ≤ 4095 := Nat.min_le_right _ _

theorem WriteOf.hasForm {r : Byte} {p : List Byte} (h : WriteOf s a r p i) (o : TxnOutcome) :
    HasForm s.cfg ⟨a, r, p, o⟩ := by
  cases i with
  | init => exact h.elim
  | setDuty ch d =>
    obtain ⟨hch, rfl, rfl, rfl⟩ := h
    exact hasForm_channel s.cfg hch (clampOn_le _) o
  | setDutyRaw ch n =>
    obtain ⟨hch, rfl, rfl, rfl⟩ := h
    exact hasForm_channel s.cfg hch (clampOn_le _) o
  | setFreq hz =>
    obtain ⟨-, rfl, rfl, h3, h255, rfl⟩ := h
    exact hasForm_prescale s.cfg h3 h255 o
  | setPrescaleRaw v =>
    obtain ⟨-, rfl, rfl, h3, h255, rfl⟩ := h
    exact hasForm_prescale s.cfg h3 h255 o
  | setSleep sl =>
    obtain ⟨rfl, rfl, rfl⟩ := h
    refine .inl ⟨rfl, rfl, .inr ?_⟩
    cases sl with
    | true => exact .inl rfl
    | false => exact .inr rfl
  | resetAll =>
    obtain ⟨rfl, rfl, rfl⟩ := h
    exact .inr (.inr (.inr (.inr ⟨rfl, rfl, rfl⟩)))
  | shutdown =>
    obtain ⟨rfl, rfl, rfl⟩ := h
    exact .inl ⟨rfl, rfl, .inr (.inl rfl)⟩

theorem WritesOf.hasForm (h : WritesOf s a ws i) {w : Byte × List Byte} (hw : w ∈ ws) (o : TxnOutcome) :
    HasForm s.cfg ⟨a, w.1, w.2, o⟩ := by
  rcases h with ⟨-, rfl, rfl⟩ | ⟨r, p, hwrite, rfl⟩
  · rcases mem_initWrites_iff.mp hw with rfl | rfl | ⟨n, hn, rfl⟩
    · exact .inl ⟨rfl, rfl, .inl rfl⟩
    · exact .inr (.inl ⟨rfl, rfl, rfl⟩)
    · exact hasForm_channel s.cfg hn (Nat.zero_le _) o
  · obtain rfl := List.mem_singleton.mp hw
    exact hwrite.hasForm o

theorem HasForm.addr {c : Config} {x : Txn} (h : HasForm c x) :
    x.addr = c.devAddr.addr ∨ (x.addr = 0x00#7 ∧ x.payload = []) := by
  rcases h with ⟨ha, -⟩ | ⟨ha, -⟩ | ⟨ha, -⟩ | ⟨ha, -⟩ | ⟨ha, -, hp⟩
  · exact .inl ha
  · exact .inl ha
  · exact .inl ha
  · exact .inl ha
  · exact .inr ⟨ha, hp⟩

/-- The record fits the register space: its last byte goes to 0xFF at most (R41). -/
def Fits (x : Txn) : Prop := x.reg.toNat + x.payload.length ≤ 256

theorem HasForm.fits {c : Config} {x : Txn} (h : HasForm c x) : Fits x := by
  rw [Fits]
  rcases h with ⟨-, hr, hp⟩ | ⟨-, hr, hp⟩ | ⟨-, n, hn, off, -, hr, hp⟩ | ⟨-, hr, v, -, -, hp⟩ | ⟨-, hr, hp⟩
  · rcases hp with hp | hp | hp <;> simp [hr, hp]
  · simp [hr, hp]
  · simp [hr, hp]
    omega
  · simp [hr, hp]
  · simp [hr, hp]

/-! ### Running writes -/

/-- The record of a write every byte of which was ACKed. -/
def okRecord (a : Addr7) (w : Byte × List Byte) : Txn := ⟨a, w.1, w.2, .ok⟩

/-- Of the writes `ws`, some are ACKed in full and the next one ends as `e` says: this leads from `s` to `t`. -/
def CutShort (a : Addr7) (ws : List (Byte × List Byte)) (e : BusEnding) (s t : State) : Prop :=
  ∃ j w u, ws[j]? = some w ∧ AllAcked a (ws.take j) s u ∧ e.Happens a w.1 w.2 u ∧ t = e.after a w.1 w.2 u

theorem allAcked_one {r : Byte} {p : List Byte} (h : BusEnding.acked.Happens a r p s) :
    AllAcked a [(r, p)] s (BusEnding.acked.after a r p s) := ⟨h, rfl⟩

theorem cutShort_one {r : Byte} {p : List Byte} {e : BusEnding} (h : e.Happens a r p s) :
    CutShort a [(r, p)] e s (e.after a r p s) := ⟨0, (r, p), s, rfl, rfl, h, rfl⟩

/-- `t` is `s` but for what the bus did: records, wire and used answers. -/
def OnlyBus (s t : State) : Prop := t = { s with hist := t.hist, wire := t.wire, answers := t.answers }

theorem allAcked_onlyBus (h : AllAcked a ws s t) : OnlyBus s t := (allAcked_effect h).1

theorem allAcked_hist (h : AllAcked a ws s t) : t.hist = s.hist ++ ws.map (okRecord a) := (allAcked_effect h).2

theorem CutShort.onlyBus {e : BusEnding} (h : CutShort a ws e s t) : OnlyBus s t := by
  obtain ⟨j, w, u, -, hu, -, rfl⟩ := h
  have hbus : OnlyBus s u := allAcked_onlyBus hu
  rw [OnlyBus] at hbus ⊢
  rw [hbus]
  rfl

theorem CutShort.hist {e : BusEnding} (h : CutShort a ws e s t) :
    ∃ j w, ws[j]? = some w ∧
      t.hist = s.hist ++ (ws.take j).map (okRecord a) ++ e.outcome.toList.map (fun o => ⟨a, w.1, w.2, o⟩) := by
  obtain ⟨j, w, u, hj, hu, -, rfl⟩ := h
  exact ⟨j, w, hj, by rw [BusEnding.after_hist, allAcked_hist hu]⟩

/-! ### How a command finishes -/

/-- The end of a command that finishes OK. -/
def State.succeed (i : Instr) (s : State) : State :=
  if i = .init then { s with pin := .low, sleeping := .asleep, life := .ready, status := 0x00#8 }
  else { s with life := lifeAfter i s.life, sleeping := sleepingAfter i s.sleeping, status := 0x00#8 }

/-- The end of a command that finishes BUS_ERROR. -/
def State.busError (i : Instr) (s : State) : State :=
  { s with life := if i = .init then .failed else lifeAfter i s.life, status := 0x04#8 }

theorem succeed_of_ne_init (hi : i ≠ .init) : s.succeed i =
    { s with life := lifeAfter i s.life, sleeping := sleepingAfter i s.sleeping, status := 0x00#8 } :=
  if_neg hi

theorem busError_of_ne_init (hi : i ≠ .init) :
    s.busError i = { s with life := lifeAfter i s.life, status := 0x04#8 } := by
  rw [State.busError, if_neg hi]

@[simp] theorem State.succeed_status : (s.succeed i).status = 0x00#8 := by rw [State.succeed]; split_ifs <;> rfl
@[simp] theorem State.succeed_hist : (s.succeed i).hist = s.hist := by rw [State.succeed]; split_ifs <;> rfl
@[simp] theorem State.succeed_wire : (s.succeed i).wire = s.wire := by rw [State.succeed]; split_ifs <;> rfl
@[simp] theorem State.succeed_cfg : (s.succeed i).cfg = s.cfg := by rw [State.succeed]; split_ifs <;> rfl
@[simp] theorem State.busError_status : (s.busError i).status = 0x04#8 := rfl
@[simp] theorem State.busError_hist : (s.busError i).hist = s.hist := rfl
@[simp] theorem State.busError_wire : (s.busError i).wire = s.wire := rfl
@[simp] theorem State.busError_cfg : (s.busError i).cfg = s.cfg := rfl
@[simp] theorem State.busError_sleeping : (s.busError i).sleeping = s.sleeping := rfl
@[simp] theorem State.busError_pin : (s.busError i).pin = s.pin := rfl

/-- The codes of a command that a check stopped before its first write (R155). -/
def CheckCode (c : BitVec 8) : Prop := c = 0x01#8 ∨ c = 0x02#8 ∨ c = 0x03#8 ∨ c = 0x06#8

theorem CheckCode.ne_ok {c : BitVec 8} (h : CheckCode c) : c ≠ 0x00#8 := by
  rcases h with rfl | rfl | rfl | rfl <;> decide

theorem CheckCode.ne_busError {c : BitVec 8} (h : CheckCode c) : c ≠ 0x04#8 := by
  rcases h with rfl | rfl | rfl | rfl <;> decide

theorem CheckCode.toNat_le {c : BitVec 8} (h : CheckCode c) : c.toNat ≤ 6 := by
  rcases h with rfl | rfl | rfl | rfl <;> decide

/-- The next state of any command: a check stopped it, or all its writes were ACKed, or one of them FAILed. -/
theorem exec_next_ends (h : exec i s = .next t) :
    (∃ c, CheckCode c ∧ t = { s with status := c }) ∨
    (accepted i s.life = true ∧ ∃ a ws u, WritesOf s a ws i ∧ AllAcked a ws s u ∧ t = u.succeed i) ∨
    (accepted i s.life = true ∧ ∃ a ws e u, WritesOf s a ws i ∧ CutShort a ws e s u ∧ e.Fails ∧ t = u.busError i) := by
  by_cases hi : i = .init
  · subst hi
    rcases exec_init_next_cases h with ⟨-, ht⟩ | ⟨hacc, u, hu, ht⟩ | ⟨hacc, j, w, u, e, hj, hu, he, hf, ht⟩
    · exact .inl ⟨_, .inr (.inr (.inr rfl)), ht⟩
    · exact .inr (.inl ⟨hacc, _, _, u, writesOf_init, hu, ht⟩)
    · exact .inr (.inr ⟨hacc, _, _, e, _, writesOf_init, ⟨j, w, u, hj, hu, he, rfl⟩, hf, ht⟩)
  · rcases exec_next_cases hi h with ⟨-, ht⟩ | ⟨-, c, hc, ht⟩ | ⟨hacc, a, r, p, hw, hh, ht⟩ | ⟨hacc, a, r, p, e, hw, hf, hh, ht⟩
    · exact .inl ⟨_, .inr (.inr (.inr rfl)), ht⟩
    · exact .inl ⟨c, by rcases hc with rfl | rfl | rfl <;> simp [CheckCode], ht⟩
    · exact .inr (.inl ⟨hacc, a, _, _, hw.writesOf, allAcked_one hh, by rw [succeed_of_ne_init hi]; exact ht⟩)
    · exact .inr (.inr ⟨hacc, a, _, e, _, hw.writesOf, cutShort_one hh, hf, by rw [busError_of_ne_init hi]; exact ht⟩)

/-- Every command finishes, or hangs in one of its writes (R86); none is refused. -/
theorem exec_next_or_hangs (i : Instr) (s : State) :
    (∃ t, exec i s = .next t) ∨
    ∃ a ws e u, WritesOf s a ws i ∧ CutShort a ws e s u ∧ e.Hangs ∧ exec i s = .fault (.busNeverAnswers u) := by
  by_cases hi : i = .init
  · subst hi
    by_cases hacc : accepted .init s.life = true
    · rw [exec_init_of_accepted hacc]
      rcases initSequence_cases (initWrites s.cfg) s with ⟨u, -, h⟩ | ⟨j, w, u, e, hj, hu, he, ⟨-, h⟩ | ⟨hh, h⟩⟩
      · exact .inl ⟨_, h⟩
      · exact .inl ⟨_, h⟩
      · exact .inr ⟨_, _, e, _, writesOf_init, ⟨j, w, u, hj, hu, he, rfl⟩, hh, h⟩
    · exact .inl ⟨_, exec_of_not_accepted (by simpa using hacc)⟩
  · rcases exec_cases i s hi with ⟨h, -⟩ | ⟨-, c, -, h⟩ | ⟨-, a, r, p, hw, h⟩
    · exact .inl ⟨_, h⟩
    · exact .inl ⟨_, h⟩
    · rw [h]
      rcases busWriteThen_cases a r p _ _ s with ⟨-, h2⟩ | ⟨e, -, -, h2⟩ | ⟨e, hh, he, h2⟩
      · exact .inl ⟨_, h2⟩
      · exact .inl ⟨_, h2⟩
      · exact .inr ⟨a, _, e, _, hw.writesOf, cutShort_one he, hh, h2⟩

/-! ### The records a command adds (R29) -/

/-- The history after any command: as before, or one OK record per write, or those up to the FAIL. -/
theorem exec_hist_cases (h : exec i s = .next t) :
    (CheckCode t.status ∧ t.hist = s.hist) ∨
    (t.status = 0x00#8 ∧ ∃ a ws, WritesOf s a ws i ∧ t.hist = s.hist ++ ws.map (okRecord a)) ∨
    (t.status = 0x04#8 ∧ ∃ a ws j w o, WritesOf s a ws i ∧ ws[j]? = some w ∧ o ≠ .ok ∧
      t.hist = s.hist ++ (ws.take j).map (okRecord a) ++ [⟨a, w.1, w.2, o⟩]) := by
  rcases exec_next_ends h with ⟨c, hc, rfl⟩ | ⟨-, a, ws, u, hws, hu, rfl⟩ | ⟨-, a, ws, e, u, hws, hu, hf, rfl⟩
  · exact .inl ⟨hc, rfl⟩
  · exact .inr (.inl ⟨State.succeed_status, a, ws, hws, by rw [State.succeed_hist, allAcked_hist hu]⟩)
  · obtain ⟨j, w, hj, hhist⟩ := hu.hist
    obtain ⟨o, he, ho⟩ := hf.outcome
    exact .inr (.inr ⟨rfl, a, ws, j, w, o, hws, hj, ho, by rw [State.busError_hist, hhist, he]; rfl⟩)

/-- The history after a command other than INIT: as before, or one record more. -/
theorem exec_setter_hist_cases (hi : i ≠ .init) (h : exec i s = .next t) :
    (CheckCode t.status ∧ t.hist = s.hist) ∨
    ∃ a r p o, WriteOf s a r p i ∧ t.hist = s.hist ++ [⟨a, r, p, o⟩] ∧
      ((t.status = 0x00#8 ∧ o = .ok) ∨ (t.status = 0x04#8 ∧ o ≠ .ok)) := by
  rcases exec_hist_cases h with hsame | ⟨hst, a, ws, hws, hhist⟩ | ⟨hst, a, ws, j, w, o, hws, hj, ho, hhist⟩
  · exact .inl hsame
  · obtain ⟨r, p, hw, rfl⟩ := hws.of_ne_init hi
    exact .inr ⟨a, r, p, .ok, hw, hhist, .inl ⟨hst, rfl⟩⟩
  · obtain ⟨r, p, hw, rfl⟩ := hws.of_ne_init hi
    obtain ⟨rfl, rfl⟩ : j = 0 ∧ (r, p) = w := by simpa [List.getElem?_singleton] using hj
    exact .inr ⟨a, r, p, o, hw, by simpa using hhist, .inr ⟨hst, ho⟩⟩

end Sys2Proof.Machine

/-! The state invariant, and what a command changes of lifecycle, mirror, pin and history (spec 10_state R24 to R29). -/

namespace Sys2Proof.Machine

variable {i : Instr} {s t : State} {a : Addr7} {ws : List (Byte × List Byte)}

/-! ### The records and the wire (R50, R71, R85) -/

/-- The part of the invariant that the bus moves: every record has a form and an outcome that fits, and put one START on
the wire. -/
def RecordsConsistent (s : State) : Prop :=
  (∀ x ∈ s.hist, HasForm s.cfg x ∧ OutcomeFits x) ∧ s.wire.count .start = s.hist.length

theorem BusEnding.outcomeFits {e : BusEnding} {r : Byte} {p : List Byte} {o : TxnOutcome} (h : e.Happens a r p s)
    (ho : e.outcome = some o) : OutcomeFits ⟨a, r, p, o⟩ := by
  rintro k (rfl : o = .failAt k)
  cases e with
  | nackAt j =>
    obtain ⟨hj, -, -⟩ := h
    obtain rfl : j = k := by simpa [BusEnding.outcome] using ho
    show j ≤ 1 + p.length
    omega
  | acked => simp [BusEnding.outcome] at ho
  | errAt j stop => simp [BusEnding.outcome] at ho
  | hangsAt j => simp [BusEnding.outcome] at ho

theorem after_recordsConsistent {e : BusEnding} {r : Byte} {p : List Byte} {o : TxnOutcome} (h : e.Happens a r p s)
    (ho : e.outcome = some o) (hform : HasForm s.cfg ⟨a, r, p, o⟩) (hs : RecordsConsistent s) :
    RecordsConsistent (e.after a r p s) := by
  obtain ⟨hrecs, hcount⟩ := hs
  constructor
  · intro x hx
    rcases List.mem_append.mp hx with hx | hx
    · exact hrecs x hx
    · obtain rfl : x = ⟨a, r, p, o⟩ := by simpa [ho] using hx
      exact ⟨hform, BusEnding.outcomeFits h ho⟩
  · simp [ho, hcount, BusEnding.wire_count_start]

theorem allAcked_recordsConsistent (h : AllAcked a ws s t) (hform : ∀ w ∈ ws, HasForm s.cfg (okRecord a w))
    (hs : RecordsConsistent s) : RecordsConsistent t := by
  induction ws generalizing s with
  | nil => exact (show t = s from h) ▸ hs
  | cons w ws ih =>
    obtain ⟨hfirst, hrest⟩ := h
    obtain ⟨hw, hws⟩ := List.forall_mem_cons.mp hform
    exact ih hrest hws (after_recordsConsistent hfirst rfl hw hs)

theorem exec_recordsConsistent (h : exec i s = .next t) (hs : RecordsConsistent s) : RecordsConsistent t := by
  rcases exec_next_ends h with ⟨c, -, rfl⟩ | ⟨-, a, ws, u, hws, hu, rfl⟩ | ⟨-, a, ws, e, t', hws, hu, hf, rfl⟩
  · exact hs
  · have := allAcked_recordsConsistent hu (fun w hw => hws.hasForm hw .ok) hs
    simpa [RecordsConsistent] using this
  · obtain ⟨j, w, u, hj, hu, he, rfl⟩ := hu
    obtain ⟨o, ho, -⟩ := hf.outcome
    have hdone := allAcked_recordsConsistent hu (fun w hw => hws.hasForm (List.mem_of_mem_take hw) .ok) hs
    have hform : HasForm u.cfg ⟨a, w.1, w.2, o⟩ := allAcked_cfg hu ▸ hws.hasForm (List.mem_of_getElem? hj) o
    exact after_recordsConsistent he ho hform hdone

/-! ### Lifecycle, mirror and pin (R24, R25, R27) -/

theorem accepted_init_iff (l : Life) : accepted .init l = true ↔ l = .uninit ∨ l = .failed := by
  cases l <;> simp [accepted, acceptsInit]

theorem accepted_shutdown_iff (l : Life) : accepted .shutdown l = true ↔ l = .ready ∨ l = .failed := by
  cases l <;> simp [accepted, acceptsShutdown]

theorem sleepingOf_ne_unknown (sl : Bool) : sleepingOf sl ≠ .unknown := by cases sl <;> simp [sleepingOf]

theorem sleepingAfter_ne_unknown {m : Sleeping} (h : m ≠ .unknown) : sleepingAfter i m ≠ .unknown := by
  cases i with
  | setSleep sl => exact sleepingOf_ne_unknown sl
  | shutdown => simp [sleepingAfter]
  | init => exact h
  | setDuty ch d => exact h
  | setDutyRaw ch n => exact h
  | setFreq hz => exact h
  | setPrescaleRaw v => exact h
  | resetAll => exact h

theorem lifeConsistent_of_ready (hl : s.life = .ready) : LifeConsistent s ↔ s.sleeping ≠ .unknown ∧ s.pin = .low := by
  rw [LifeConsistent, hl]

theorem lifeConsistent_of_failed (hl : s.life = .failed) :
    LifeConsistent s ↔ s.sleeping = .unknown ∧ s.pin = .undriven := by
  rw [LifeConsistent, hl]

theorem lifeConsistent_of_shutdown (hl : s.life = .shutdown) :
    LifeConsistent s ↔ (s.pin = .low → s.sleeping ≠ .unknown) ∧ (s.pin = .undriven → s.sleeping ≠ .awake) := by
  rw [LifeConsistent, hl]

/-- INIT is accepted only where the mirror is unknown and the pin undriven. -/
theorem lifeConsistent_of_accepted_init (hacc : accepted .init s.life = true) (hs : LifeConsistent s) :
    s.sleeping = .unknown ∧ s.pin = .undriven := by
  rcases (accepted_init_iff _).mp hacc with hl | hl <;> rw [LifeConsistent, hl] at hs
  · obtain ⟨hm, hp, -⟩ := hs
    exact ⟨hm, hp⟩
  · exact hs

/-- Where SHUTDOWN is accepted, the mirror is known just if the pin is driven. -/
theorem lifeConsistent_of_accepted_shutdown (hacc : accepted .shutdown s.life = true) (hs : LifeConsistent s) :
    (s.pin = .low → s.sleeping ≠ .unknown) ∧ (s.pin = .undriven → s.sleeping ≠ .awake) := by
  rcases (accepted_shutdown_iff _).mp hacc with hl | hl
  · obtain ⟨hm, hp⟩ := (lifeConsistent_of_ready hl).mp hs
    simp [hm, hp]
  · obtain ⟨hm, hp⟩ := (lifeConsistent_of_failed hl).mp hs
    simp [hm, hp]

theorem succeed_lifeConsistent {u : State} (hacc : accepted i s.life = true) (hbus : OnlyBus s u)
    (hs : LifeConsistent s) : LifeConsistent (u.succeed i) := by
  by_cases hinit : i = .init
  · subst hinit
    exact (lifeConsistent_of_ready rfl).mpr ⟨Sleeping.noConfusion, rfl⟩
  rw [succeed_of_ne_init hinit, hbus]
  by_cases hshut : i = .shutdown
  · subst hshut
    exact (lifeConsistent_of_shutdown rfl).mpr ⟨fun _ => Sleeping.noConfusion, fun _ => Sleeping.noConfusion⟩
  have hl : s.life = .ready := (accepted_setter_iff hinit hshut _).mp hacc
  obtain ⟨hm, hp⟩ := (lifeConsistent_of_ready hl).mp hs
  exact (lifeConsistent_of_ready (by simp [lifeAfter, hshut, hl])).mpr ⟨sleepingAfter_ne_unknown hm, hp⟩

theorem busError_lifeConsistent {u : State} (hacc : accepted i s.life = true) (hbus : OnlyBus s u)
    (hs : LifeConsistent s) : LifeConsistent (u.busError i) := by
  rw [State.busError, hbus]
  by_cases hinit : i = .init
  · subst hinit
    have hmp := lifeConsistent_of_accepted_init hacc hs
    exact (lifeConsistent_of_failed rfl).mpr hmp
  by_cases hshut : i = .shutdown
  · subst hshut
    have hmp := lifeConsistent_of_accepted_shutdown hacc hs
    exact (lifeConsistent_of_shutdown rfl).mpr hmp
  have hl : s.life = .ready := (accepted_setter_iff hinit hshut _).mp hacc
  exact (lifeConsistent_of_ready (by simp [lifeAfter, hinit, hshut, hl])).mpr ((lifeConsistent_of_ready hl).mp hs)

theorem exec_lifeConsistent (h : exec i s = .next t) (hs : LifeConsistent s) : LifeConsistent t := by
  rcases exec_next_ends h with ⟨c, -, rfl⟩ | ⟨hacc, a, ws, u, -, hu, rfl⟩ | ⟨hacc, a, ws, e, u, -, hu, -, rfl⟩
  · exact hs
  · exact succeed_lifeConsistent hacc (allAcked_onlyBus hu) hs
  · exact busError_lifeConsistent hacc hu.onlyBus hs

/-! ### The invariant -/

theorem exec_status_le (h : exec i s = .next t) : t.status.toNat ≤ 6 := by
  rcases exec_hist_cases h with ⟨hc, -⟩ | ⟨hst, -⟩ | ⟨hst, -⟩
  · exact hc.toNat_le
  · rw [hst]; decide
  · rw [hst]; decide

theorem exec_inv (h : exec i s = .next t) (hs : s.Inv) : t.Inv := by
  obtain ⟨hlife, -, hrecs⟩ := hs
  exact ⟨exec_lifeConsistent h hlife, exec_status_le h, exec_recordsConsistent h hrecs⟩

theorem execute_inv {w : CmdWord} (h : execute w s = .next t) (hs : s.Inv) : t.Inv := by
  cases hd : decode w with
  | ok i => exact exec_inv (execute_of_decode hd s ▸ h) hs
  | error e =>
    rw [execute_of_illegal hd] at h
    injection h with h
    subst h
    obtain ⟨hlife, -, hrecs⟩ := hs
    exact ⟨hlife, show (0x05#8).toNat ≤ 6 by decide, hrecs⟩

theorem restart_inv (s : State) : s.restart.Inv :=
  ⟨⟨rfl, rfl, rfl⟩, Nat.zero_le 6, by simp, rfl⟩

/-- Settles O48: `exec_inv` for a command's three ends, `restart_inv` for a reset. -/
theorem stepKeepsInvariant : Obligations.StepKeepsInvariant := by
  intro s t hs h
  rcases hin : s.inbox with _ | ⟨w | _, rest⟩
  · rw [step_of_idle hin] at h
    injection h with h
    exact h ▸ hs
  · rw [step_of_command hin] at h
    exact execute_inv h hs
  · rw [step_of_reset hin] at h
    injection h with h
    exact h ▸ restart_inv _

/-- Settles O47: nothing is recorded and nothing driven at reset. -/
theorem resetSatisfiesInvariant : Obligations.ResetSatisfiesInvariant :=
  ⟨⟨rfl, rfl, rfl⟩, Nat.zero_le 6, by simp, rfl⟩

/-! ### Reset and the step (R30, R39, R67) -/

/-- Settles O8: a reset of the block is `State.restart` of the state without that event. -/
theorem resetValues : Obligations.ResetValues :=
  ⟨⟨rfl, rfl, rfl, rfl, rfl⟩, fun _ _ hin =>
    ⟨_, step_of_reset hin, rfl, rfl, rfl, rfl, rfl, rfl, rfl, rfl, rfl⟩⟩

/-- Settles O10: a presented word is executed, and `execute` runs what `decode` answers. -/
theorem stepRunsTheDecodedCommand : Obligations.StepRunsTheDecodedCommand :=
  ⟨fun _ _ _ _ hin hd => (step_of_command hin).trans (execute_of_decode hd _), fun _ => step_of_idle⟩

/-! ### Hanging (R86) -/

theorem BusEnding.Hangs.eq_hangsAt {e : BusEnding} (h : e.Hangs) : ∃ k, e = .hangsAt k := by
  cases e with
  | hangsAt k => exact ⟨k, rfl⟩
  | acked => exact h.elim
  | nackAt k => exact h.elim
  | errAt k stop => exact h.elim

/-- A fault from `s` comes of a write that the bus of `s` never answers, behind OK records that used up answers of it. -/
def HangsOnBus (s : State) (f : Fault) : Prop :=
  ∃ (m : State) (new : List Txn) (a : Addr7) (r : Byte) (p : List Byte) (k : Nat),
    (BusEnding.hangsAt k).Happens a r p m ∧ f = .busNeverAnswers ((BusEnding.hangsAt k).after a r p m) ∧
    m.hist = s.hist ++ new ∧ (∀ x ∈ new, x.outcome = .ok) ∧
    m.answers = s.answers.drop (new.map fun x => 2 + x.payload.length).sum ∧ m.era = s.era ∧ m.cfg = s.cfg ∧
    (a = s.cfg.devAddr.addr ∨ a = 0x00#7)

theorem forall_okRecord_outcome (a : Addr7) (ws : List (Byte × List Byte)) :
    ∀ x ∈ ws.map (okRecord a), x.outcome = .ok :=
  List.forall_mem_map.mpr fun _ _ => rfl

theorem WritesOf.addr (h : WritesOf s a ws i) {w : Byte × List Byte} (hw : w ∈ ws) :
    a = s.cfg.devAddr.addr ∨ a = 0x00#7 := by
  rcases (h.hasForm hw .ok).addr with ha | ⟨ha, -⟩
  · exact .inl ha
  · exact .inr ha

theorem exec_fault_hangsOnBus {f : Fault} (h : exec i s = .fault f) : HangsOnBus s f := by
  rcases exec_next_or_hangs i s with ⟨t, ht⟩ | ⟨a, ws, e, u, hws, ⟨j, w, m, hj, hm, he, rfl⟩, hh, hf⟩
  · rw [ht] at h
    cases h
  · rw [hf] at h
    injection h with h
    obtain ⟨k, rfl⟩ := hh.eq_hangsAt
    obtain ⟨hcfg, -, hera⟩ := allAcked_sameSetting hm
    refine ⟨m, (ws.take j).map (okRecord a), a, w.1, w.2, k, he, h.symm, allAcked_hist hm,
      forall_okRecord_outcome a _, ?_, hera, hcfg, hws.addr (List.mem_of_getElem? hj)⟩
    rw [allAcked_answers hm, List.map_map]
    rfl

theorem exec_not_refused (i : Instr) (s : State) (r : Refusal) : exec i s ≠ .refused r := by
  rcases exec_next_or_hangs i s with ⟨t, h⟩ | ⟨a, ws, e, u, -, -, -, h⟩ <;> simp [h]

/-- Settles O11: of the events a step takes only a decoded command can stop it, and `exec` stops in a write alone. -/
theorem stepsStopOnlyOnAHungBus : Obligations.StepsStopOnlyOnAHungBus := by
  intro s
  show (∀ r, step s ≠ .refused r) ∧ ∀ f, step s = .fault f → HangsOnBus s f
  rcases hin : s.inbox with _ | ⟨w | _, rest⟩
  · simp [step_of_idle hin]
  · rw [step_of_command hin]
    cases hd : decode w with
    | ok i =>
      rw [execute_of_decode hd]
      exact ⟨exec_not_refused i _, fun f hf => exec_fault_hangsOnBus (s := { s with inbox := rest }) hf⟩
    | error e => simp [execute_of_illegal hd]
  · simp [step_of_reset hin]

/-! ### What a command changes -/

theorem OnlyBus.life (h : OnlyBus s t) : t.life = s.life := by rw [h]
theorem OnlyBus.sleeping (h : OnlyBus s t) : t.sleeping = s.sleeping := by rw [h]
theorem OnlyBus.pin (h : OnlyBus s t) : t.pin = s.pin := by rw [h]

theorem succeed_life : (s.succeed i).life = if i = .init then .ready else lifeAfter i s.life := by
  rw [State.succeed]
  split_ifs <;> rfl

theorem init_or_shutdown_of_life_ne {onInit l : Life} (h : (if i = .init then onInit else lifeAfter i l) ≠ l) :
    i = .init ∨ i = .shutdown := by
  by_contra hno
  obtain ⟨hinit, hshut⟩ := not_or.mp hno
  exact h (by simp [hinit, hshut, lifeAfter])

/-- Settles O42: OK and BUS_ERROR write `life` in INIT and SHUTDOWN only, and a check writes it nowhere. -/
theorem lifeChangesOnlyByInitAndShutdown : Obligations.LifeChangesOnlyByInitAndShutdown := by
  intro i s t h hne
  rcases exec_next_ends h with ⟨c, -, rfl⟩ | ⟨hacc, a, ws, u, -, hu, rfl⟩ | ⟨hacc, a, ws, e, u, -, hu, -, rfl⟩
  · exact absurd rfl hne
  · rw [← (allAcked_onlyBus hu).life, succeed_life] at hne
    rcases init_or_shutdown_of_life_ne hne with rfl | rfl
    · exact .inl ⟨rfl, rfl, rfl⟩
    · exact .inr (.inr ⟨rfl, rfl, (accepted_shutdown_iff _).mp hacc⟩)
  · rw [← hu.onlyBus.life] at hne
    rcases init_or_shutdown_of_life_ne hne with rfl | rfl
    · exact .inr (.inl ⟨rfl, rfl, rfl⟩)
    · exact .inr (.inr ⟨rfl, rfl, (accepted_shutdown_iff _).mp hacc⟩)

theorem succeed_sleeping_cases (i : Instr) (s : State) :
    (s.succeed i).sleeping = s.sleeping ∨
    ((s.succeed i).sleeping = .asleep ∧ (i = .init ∨ i = .setSleep true ∨ i = .shutdown)) ∨
    ((s.succeed i).sleeping = .awake ∧ i = .setSleep false) := by
  cases i with
  | init => exact .inr (.inl ⟨rfl, .inl rfl⟩)
  | setSleep sl =>
    cases sl with
    | true => exact .inr (.inl ⟨rfl, .inr (.inl rfl)⟩)
    | false => exact .inr (.inr ⟨rfl, rfl⟩)
  | shutdown => exact .inr (.inl ⟨rfl, .inr (.inr rfl)⟩)
  | setDuty ch d => exact .inl rfl
  | setDutyRaw ch n => exact .inl rfl
  | setFreq hz => exact .inl rfl
  | setPrescaleRaw v => exact .inl rfl
  | resetAll => exact .inl rfl

theorem succeed_pin_cases (i : Instr) (s : State) :
    (s.succeed i).pin = s.pin ∨ (i = .init ∧ (s.succeed i).pin = .low) := by
  by_cases hi : i = .init
  · exact .inr ⟨hi, by rw [hi]; rfl⟩
  · exact .inl (by rw [succeed_of_ne_init hi])

/-- Settles O43: only an OK writes the mirror or the pin. -/
theorem mirrorAndPinWriters : Obligations.MirrorAndPinWriters := by
  intro i s t h
  rcases exec_next_ends h with ⟨c, -, rfl⟩ | ⟨-, a, ws, u, -, hu, rfl⟩ | ⟨-, a, ws, e, u, -, hu, -, rfl⟩
  · exact ⟨fun hne => absurd rfl hne, fun hne => absurd rfl hne⟩
  · have hbus := allAcked_onlyBus hu
    rw [← hbus.sleeping, ← hbus.pin]
    refine ⟨fun hne => ⟨State.succeed_status, ?_⟩, fun hne => ?_⟩
    · exact (succeed_sleeping_cases i u).resolve_left hne
    · obtain ⟨hi, hpin⟩ := (succeed_pin_cases i u).resolve_left hne
      exact ⟨hi, hpin, State.succeed_status⟩
  · exact ⟨fun hne => absurd hu.onlyBus.sleeping hne, fun hne => absurd hu.onlyBus.pin hne⟩

/-- Settles O44: a record is one of `WritesOf`, whose number is bounded. -/
theorem historyOnlyGrows : Obligations.HistoryOnlyGrows := by
  rintro i s t (h | h)
  · rcases exec_hist_cases h with ⟨-, hhist⟩ | ⟨-, a, ws, hws, hhist⟩ | ⟨-, a, ws, j, w, o, hws, hj, -, hhist⟩
    · exact ⟨[], by simp [hhist]⟩
    · exact ⟨_, hhist, by simpa using hws.length_le⟩
    · obtain ⟨hlt, -⟩ := List.getElem?_eq_some_iff.mp hj
      rw [List.append_assoc] at hhist
      refine ⟨_, hhist, le_trans ?_ hws.length_le⟩
      simp
      omega
  · rcases exec_next_or_hangs i s with ⟨t', ht⟩ | ⟨a, ws, e, u, hws, hu, hh, hf⟩
    · rw [ht] at h
      cases h
    · obtain rfl : u = t := by simpa [hf] using h
      obtain ⟨j, w, -, hhist⟩ := hu.hist
      obtain ⟨k, rfl⟩ := hh.eq_hangsAt
      refine ⟨(ws.take j).map (okRecord a), by simpa [BusEnding.outcome] using hhist, le_trans ?_ hws.length_le⟩
      simp

end Sys2Proof.Machine

/-! What a command's records do to the intended image and to what is known of the chip (spec 10_state R37, R88, R179). -/

namespace Sys2Proof.Machine

variable {i : Instr} {s t : State} {dev a : Addr7} {ws : List (Byte × List Byte)} {hist : List Txn} {x : Txn} {r b : Byte}
  {k : Nat}

theorem State.dev_ne_zero (s : State) : s.cfg.devAddr.addr ≠ 0x00#7 := s.cfg.devAddr.nonzero

/-- The register of byte `k` of a record. -/
theorem byteAt_of_payload (hfits : Fits x) (hb : x.payload[k]? = some b) :
    byteAt x (BitVec.ofNat 8 (x.reg.toNat + k)) = some b := by
  obtain ⟨hk, -⟩ := List.getElem?_eq_some_iff.mp hb
  rw [Fits] at hfits
  rw [byteAt_offset (by omega), hb]

/-! ### One record more (R37, R88, R134, R179) -/

theorem image_append_covered (ha : x.addr = dev) (ho : x.outcome = .ok) (hb : byteAt x r = some b) :
    image dev (hist ++ [x]) r = some b := by
  simp [imageStep, ha, ho, hb]

theorem image_append_uncovered (new : List Txn) (h : ∀ x ∈ new, byteAt x r = none) :
    image dev (hist ++ new) r = image dev hist r := by
  induction new generalizing hist with
  | nil => simp
  | cons x new ih =>
    obtain ⟨hx, hnew⟩ := List.forall_mem_cons.mp h
    rw [List.append_cons, ih hnew]
    simp [imageStep, hx]

/-- Old or new: `after` is what `before` is, or the new byte (R88). -/
def OldOrNew (b : Byte) (before after : RegKnowledge) : Prop :=
  (before = .unknown → after = .unknown) ∧
  ∀ bs : List Byte, before = .oneOf bs → ∃ bs' : List Byte, after = .oneOf bs' ∧ ∀ y, y ∈ bs' ↔ y ∈ bs ∨ y = b

theorem orByte_oldOrNew (b : Byte) (k : RegKnowledge) : OldOrNew b k (k.orByte b) := by
  refine ⟨?_, ?_⟩
  · rintro rfl
    exact orByte_unknown b
  · rintro bs rfl
    exact orByte_oneOf b bs

theorem chipRegister_append_fail_covered (ha : x.addr = dev) (h0 : dev ≠ 0x00#7) (ho : x.outcome ≠ .ok)
    (hb : byteAt x r = some b) : OldOrNew b (chipRegister dev hist r) (chipRegister dev (hist ++ [x]) r) := by
  rw [chipRegister_append_one, learnRegister_covered ha h0 hb, afterWrite, if_pos ho]
  exact orByte_oldOrNew b _

theorem chipRegister_append_fail_uncovered (ho : x.outcome ≠ .ok) (hb : byteAt x r = none) :
    chipRegister dev (hist ++ [x]) r = chipRegister dev hist r := by
  simp [learnRegister, isBroadcastReset, ho, hb]

theorem chipRegister_append_uncovered (ha : x.addr = dev) (h0 : dev ≠ 0x00#7) (hb : byteAt x r = none) :
    chipRegister dev (hist ++ [x]) r = chipRegister dev hist r := by
  rw [chipRegister_append_one, learnRegister_uncovered ha h0 hb]

theorem chipRegister_append_ok_covered (ha : x.addr = dev) (h0 : dev ≠ 0x00#7) (ho : x.outcome = .ok)
    (hb : byteAt x r = some b) :
    chipRegister dev (hist ++ [x]) r =
      if autoIncrement dev hist = true ∨ x.payload.length ≤ 1 then .oneOf [b] else .unknown := by
  rw [chipRegister_append_one, learnRegister_covered ha h0 hb, afterWrite, if_neg (not_not.mpr ho)]

theorem chipRegister_append_ok_byte (ha : x.addr = dev) (h0 : dev ≠ 0x00#7) (ho : x.outcome = .ok)
    (hp : x.payload = [b]) : chipRegister dev (hist ++ [x]) x.reg = .oneOf [b] := by
  have hb : byteAt x x.reg = some b := by simp [byteAt, hp]
  rw [chipRegister_append_ok_covered ha h0 ho hb, if_pos (by simp [hp])]

/-! ### Records of the chip, with auto-increment on -/

theorem autoIncrement_append_chip {new : List Txn} (h0 : dev ≠ 0x00#7) (hon : autoIncrement dev hist = true)
    (hnew : ∀ x ∈ new, x.addr = dev) : autoIncrement dev (hist ++ new) = true := by
  induction new generalizing hist with
  | nil => simpa using hon
  | cons x new ih =>
    obtain ⟨hx, hnew⟩ := List.forall_mem_cons.mp hnew
    rw [List.append_cons]
    exact ih (by simp [autoIncrementStep, isBroadcastReset_chip hx h0, hon]) hnew

/-- OK records that put no byte but `b` at a register, and one of them does or it was there: it holds `b`. -/
theorem chipRegister_append_chip {new : List Txn} (h0 : dev ≠ 0x00#7) (hon : autoIncrement dev hist = true)
    (hnew : ∀ x ∈ new, x.addr = dev ∧ x.outcome = .ok ∧ (byteAt x r = none ∨ byteAt x r = some b))
    (hheld : chipRegister dev hist r = .oneOf [b] ∨ ∃ x ∈ new, byteAt x r = some b) :
    chipRegister dev (hist ++ new) r = .oneOf [b] := by
  induction new generalizing hist with
  | nil => simpa using hheld
  | cons x new ih =>
    obtain ⟨⟨ha, ho, hbyte⟩, hnew⟩ := List.forall_mem_cons.mp hnew
    have hon' : autoIncrement dev (hist ++ [x]) = true := autoIncrement_append_chip h0 hon (by simpa using ha)
    rw [List.append_cons]
    refine ih hon' hnew ?_
    rcases hbyte with hb | hb
    · rw [chipRegister_append_uncovered ha h0 hb]
      simpa [hb] using hheld
    · left
      rw [chipRegister_append_ok_covered ha h0 ho hb, if_pos (.inl hon)]

/-! ### The records of INIT (R94) -/

/-- INIT's writes but the first, which is MODE1's and turns auto-increment on. -/
def initRest (c : Config) : List (Byte × List Byte) := (initWrites c).tail

theorem initWrites_eq (c : Config) : initWrites c = (regMode1, [c.mode1Init]) :: initRest c := rfl

theorem mem_initRest_iff {c : Config} {w : Byte × List Byte} :
    w ∈ initRest c ↔ w = (regMode2, [c.mode2Init]) ∨ ∃ n < 16, w = (channelReg n, channelPayload 0) := by
  simp [initRest, initWrites, eq_comm]

theorem autoIncrement_append_mode1 (h0 : dev ≠ 0x00#7) (m : Byte) :
    autoIncrement dev (hist ++ [okRecord dev (regMode1, [m])]) = true := by
  rw [autoIncrement_append_one]
  exact autoIncrementStep_mode1 h0 (by simp [writesMode1, okRecord])

/-- Once INIT's first record is OK, auto-increment is on and its later records leave it on. -/
theorem autoIncrement_append_init_take (s : State) {j : Nat} (hj : 0 < j) :
    autoIncrement s.dev (s.hist ++ ((initWrites s.cfg).take j).map (okRecord s.dev)) = true := by
  obtain ⟨j, rfl⟩ := Nat.exists_eq_add_one_of_ne_zero hj.ne'
  rw [initWrites_eq, List.take_succ_cons, List.map_cons, List.append_cons]
  exact autoIncrement_append_chip s.dev_ne_zero (autoIncrement_append_mode1 s.dev_ne_zero _)
    (List.forall_mem_map.mpr fun _ _ => rfl)

end Sys2Proof.Machine

/-! The image and the chip's registers after each command (spec 10_state R37, R38, R88, R179). -/

namespace Sys2Proof.Machine

variable {i : Instr} {s t : State} {dev a : Addr7} {hist : List Txn} {r b : Byte} {k ch c : Nat} {o : TxnOutcome}

/-! ### Channel records (R33, R45) -/

/-- The record of a channel write. -/
def channelRecord (dev : Addr7) (ch c : Nat) (o : TxnOutcome) : Txn := ⟨dev, channelReg ch, channelPayload c, o⟩

theorem channelRecord_fits (dev : Addr7) (c : Nat) (o : TxnOutcome) (hch : ch < 16) : Fits (channelRecord dev ch c o) := by
  simp [Fits, channelRecord, channelReg_toNat hch, channelPayload]
  omega

theorem byteAt_channelRecord (dev : Addr7) (o : TxnOutcome) (hch : ch < 16) (hb : (channelPayload c)[k]? = some b) :
    byteAt (channelRecord dev ch c o) (BitVec.ofNat 8 (0x06 + 4 * ch + k)) = some b := by
  have := byteAt_of_payload (channelRecord_fits dev c o hch) hb
  rwa [channelRecord, channelReg_toNat hch] at this

theorem byteAt_channelRecord_outside (dev : Addr7) (c : Nat) (o : TxnOutcome) (hch : ch < 16)
    (hr : ¬ (0x06 + 4 * ch ≤ r.toNat ∧ r.toNat ≤ 0x06 + 4 * ch + 3)) : byteAt (channelRecord dev ch c o) r = none := by
  apply byteAt_outside
  simp only [channelRecord, channelReg_toNat hch, channelPayload, List.length_cons, List.length_nil]
  omega

/-- A write of duty 0 puts 0 wherever it puts a byte. -/
theorem byteAt_channelRecord_zero (dev : Addr7) (ch : Nat) (o : TxnOutcome) (r : Byte) :
    byteAt (channelRecord dev ch 0 o) r = none ∨ byteAt (channelRecord dev ch 0 o) r = some 0x00#8 := by
  rw [byteAt]
  split_ifs
  · cases hb : (channelRecord dev ch 0 o).payload[r.toNat - (channelRecord dev ch 0 o).reg.toNat]? with
    | none => exact .inl rfl
    | some b =>
      have hmem : b ∈ channelPayload 0 := List.mem_of_getElem? hb
      right
      simpa [channelPayload, u8] using hmem
  · exact .inl rfl

/-- The history after SET_DUTY_RAW: as before, or its channel record more. -/
theorem exec_setDutyRaw_hist_cases {n : Int} (h : exec (.setDutyRaw ch n) s = .next t) :
    (CheckCode t.status ∧ t.hist = s.hist) ∨
    (ch < 16 ∧ ∃ o, t.hist = s.hist ++ [channelRecord s.cfg.devAddr.addr ch (min n.toNat 4095) o] ∧
      ((t.status = 0x00#8 ∧ o = .ok) ∨ (t.status = 0x04#8 ∧ o ≠ .ok))) := by
  rcases exec_setter_hist_cases Instr.noConfusion h with hsame | ⟨a, r, p, o, ⟨hch, rfl, rfl, rfl⟩, hhist, hst⟩
  · exact .inl hsame
  · exact .inr ⟨hch, o, hhist, hst⟩

theorem exec_setDutyRaw_hist_of_ok {n : Int} (h : exec (.setDutyRaw ch n) s = .next t) (hst : t.status = 0x00#8) :
    ch < 16 ∧ t.hist = s.hist ++ [channelRecord s.cfg.devAddr.addr ch (min n.toNat 4095) .ok] := by
  rcases exec_setDutyRaw_hist_cases h with ⟨hc, -⟩ | ⟨hch, o, hhist, ⟨-, rfl⟩ | ⟨hst', -⟩⟩
  · exact absurd hst hc.ne_ok
  · exact ⟨hch, hhist⟩
  · simp [hst] at hst'

theorem u8_div_256_toNat (hc : c ≤ 4095) : (u8 (c / 256)).toNat = c / 256 := u8_toNat_of_le (by omega)

/-- The two bytes of a count, put together again (R38). -/
theorem count_of_bytes (hc : c ≤ 4095) : (u8 (c / 256)).toNat * 256 + (u8 c).toNat = c := by
  rw [u8_div_256_toNat hc, u8, BitVec.toNat_ofNat]
  omega

/-- Settles O22: the OK record puts the clamped count's bytes at the channel's registers. -/
theorem imageHoldsTheClampedCount : Obligations.ImageHoldsTheClampedCount := by
  intro s t ch n _ h hst
  obtain ⟨hch, hhist⟩ := exec_setDutyRaw_hist_of_ok h hst
  have hc : min n.toNat 4095 ≤ 4095 := Nat.min_le_right _ _
  generalize min n.toNat 4095 = c at hhist hc ⊢
  have byte {k : Nat} {b : Byte} (hb : (channelPayload c)[k]? = some b) :
      image s.cfg.devAddr.addr t.hist (BitVec.ofNat 8 (0x06 + 4 * ch + k)) = some b := by
    rw [hhist]
    exact image_append_covered rfl rfl (byteAt_channelRecord _ _ hch hb)
  have hlo : image s.cfg.devAddr.addr t.hist (channelRegAt ch 2) = some (u8 c) := byte (k := 2) rfl
  have hhi : image s.cfg.devAddr.addr t.hist (channelRegAt ch 3) = some (u8 (c / 256)) := byte (k := 3) rfl
  refine ⟨?_, byte (k := 0) rfl, byte (k := 1) rfl, u8 (c / 256), hhi, ?_⟩
  · rw [onImage, hlo, hhi]
    exact congrArg some (count_of_bytes hc)
  · rw [u8_div_256_toNat hc]
    omega

/-- Settles O50: the one record is a channel record; a FAIL leaves old or new, an OK what auto-increment allows. -/
theorem setDutyRawLeavesOldOrNew : Obligations.SetDutyRawLeavesOldOrNew := by
  intro s t ch n _ h c dev payload reg
  have hpayload : payload = channelPayload c := (channelPayload_eq c).symm
  rw [hpayload]
  have h0 : dev ≠ 0x00#7 := s.dev_ne_zero
  rcases exec_setDutyRaw_hist_cases h with ⟨hst, hhist⟩ | ⟨hch, o, hhist, ⟨hst, rfl⟩ | ⟨hst, ho⟩⟩
  · exact ⟨fun h4 => absurd h4 hst.ne_busError, fun h0 => absurd h0 hst.ne_ok, fun r _ => by rw [hhist]⟩
  · rw [hhist, hst]
    refine ⟨fun h4 => absurd h4 (by decide), fun _ k b hb => ?_, fun r hr => ?_⟩
    · refine (chipRegister_append_ok_covered rfl h0 rfl (byteAt_channelRecord dev .ok hch hb)).trans ?_
      simp [channelRecord, channelPayload]
    · exact chipRegister_append_uncovered rfl h0 (byteAt_channelRecord_outside dev c .ok hch hr)
  · rw [hhist, hst]
    refine ⟨fun _ k b hb => ?_, fun h0 => absurd h0 (by decide), fun r hr => ?_⟩
    · exact chipRegister_append_fail_covered rfl h0 ho (byteAt_channelRecord dev o hch hb)
    · exact chipRegister_append_fail_uncovered ho (byteAt_channelRecord_outside dev c o hch hr)

/-! ### Any command (R88) -/

theorem WriteOf.addr_eq_dev {p : List Byte} (h : WriteOf s a r p i) (hi : i ≠ .resetAll) : a = s.cfg.devAddr.addr := by
  cases i with
  | init => exact h.elim
  | resetAll => exact absurd rfl hi
  | setDuty ch d =>
    obtain ⟨-, ha, -⟩ := h
    exact ha
  | setDutyRaw ch n =>
    obtain ⟨-, ha, -⟩ := h
    exact ha
  | setFreq hz =>
    obtain ⟨-, ha, -⟩ := h
    exact ha
  | setPrescaleRaw v =>
    obtain ⟨-, ha, -⟩ := h
    exact ha
  | setSleep sl =>
    obtain ⟨ha, -⟩ := h
    exact ha
  | shutdown =>
    obtain ⟨ha, -⟩ := h
    exact ha

/-- A record that covers a register is one of the chip: the broadcast reset has no payload (R71). -/
theorem HasForm.addr_of_payload {cfg : Config} {x : Txn} (h : HasForm cfg x) (hb : x.payload[k]? = some b) :
    x.addr = cfg.devAddr.addr := by
  rcases h.addr with ha | ⟨-, hp⟩
  · exact ha
  · simp [hp] at hb

/-- Only INIT issues a write after another. -/
theorem WritesOf.index_eq_zero {ws : List (Byte × List Byte)} {w : Byte × List Byte} {j : Nat}
    (hws : WritesOf s a ws i) (hj : ws[j]? = some w) (hi : i ≠ .init) : j = 0 := by
  obtain ⟨hlt, -⟩ := List.getElem?_eq_some_iff.mp hj
  have hle := hws.length_le
  rw [if_neg hi] at hle
  omega

/-- Settles O51: every record has a form of R71, so it fits the register space and covers registers of the chip only. -/
theorem commandWritesOnTheChip : Obligations.CommandWritesOnTheChip := by
  intro i s t h dev reg covers
  have h0 : dev ≠ 0x00#7 := s.dev_ne_zero
  refine ⟨fun hst => ?_, fun hst hi => ?_⟩
  · rcases exec_hist_cases h with ⟨hc, -⟩ | ⟨hok, -⟩ | ⟨-, a, ws, j, w, o, hws, hj, ho, hhist⟩
    · exact absurd hst hc.ne_busError
    · simp [hst] at hok
    have hform : HasForm s.cfg ⟨a, w.1, w.2, o⟩ := hws.hasForm (List.mem_of_getElem? hj) o
    refine ⟨(ws.take j).map (okRecord a), ⟨a, w.1, w.2, o⟩, hhist, forall_okRecord_outcome a _, ho, fun hi => ?_,
      fun k b hb => ?_, fun r hr => ?_⟩
    · simp [hws.index_eq_zero hj hi]
    · rw [hhist]
      exact chipRegister_append_fail_covered (hform.addr_of_payload hb) h0 ho (byteAt_of_payload hform.fits hb)
    · rw [hhist]
      exact chipRegister_append_fail_uncovered ho (byteAt_outside hr)
  · rcases exec_setter_hist_cases hi h with ⟨hc, -⟩ | ⟨a, r, p, o, hw, hhist, ⟨-, rfl⟩ | ⟨hfail, -⟩⟩
    · exact absurd hst hc.ne_ok
    swap
    · simp [hst] at hfail
    have hform : HasForm s.cfg ⟨a, r, p, .ok⟩ := hw.hasForm .ok
    rw [hhist]
    refine ⟨⟨a, r, p, .ok⟩, rfl, rfl, fun k b hb => ?_, fun hreset r' hr => ?_⟩
    · rw [chipRegister_append_ok_covered (hform.addr_of_payload hb) h0 rfl (byteAt_of_payload hform.fits hb)]
      obtain ⟨hk, -⟩ := List.getElem?_eq_some_iff.mp hb
      have hone : p.length ≤ 1 ↔ p.length = 1 := by
        simp only at hk
        omega
      exact if_congr (or_congr_right hone) rfl rfl
    · exact chipRegister_append_uncovered (hw.addr_eq_dev hreset) h0 (byteAt_outside hr)

/-! ### INIT (R95) -/

theorem byteAt_of_lt {x : Txn} (h : r.toNat < x.reg.toNat) : byteAt x r = none := if_neg (Nat.not_le.mpr h)

/-- INIT writes MODE1, MODE2 and the channel registers only. -/
theorem byteAt_initWrites_outside {cfg : Config} {w : Byte × List Byte} (hw : w ∈ initWrites cfg) (a : Addr7)
    (o : TxnOutcome) (hr : (0x02 ≤ r.toNat ∧ r.toNat ≤ 0x05) ∨ 0x46 ≤ r.toNat) : byteAt ⟨a, w.1, w.2, o⟩ r = none := by
  rcases mem_initWrites_iff.mp hw with rfl | rfl | ⟨n, hn, rfl⟩
  · exact byteAt_outside (by simp; omega)
  · exact byteAt_outside (by simp; omega)
  · exact byteAt_channelRecord_outside a 0 o hn (by omega)

/-- Settles O17: the setting is kept, and no record of INIT covers such a register. -/
theorem initFrame : Obligations.InitFrame := by
  intro s t h
  obtain ⟨hcfg, hinbox, hera⟩ := exec_sameSetting h
  refine ⟨hcfg, hinbox, hera, fun r hr => ?_⟩
  rcases exec_hist_cases h with ⟨-, hhist⟩ | ⟨-, a, ws, hws, hhist⟩ | ⟨-, a, ws, j, w, o, hws, hj, -, hhist⟩
  · rw [hhist]
  · obtain ⟨-, rfl⟩ := hws.of_init
    rw [hhist]
    exact image_append_uncovered _ (List.forall_mem_map.mpr fun w hw => byteAt_initWrites_outside hw a .ok hr)
  · obtain ⟨-, rfl⟩ := hws.of_init
    have hdone : ∀ x ∈ ((initWrites s.cfg).take j).map (okRecord a), byteAt x r = none :=
      List.forall_mem_map.mpr fun w hw => byteAt_initWrites_outside (List.mem_of_mem_take hw) a .ok hr
    have hlast : byteAt ⟨a, w.1, w.2, o⟩ r = none := byteAt_initWrites_outside (List.mem_of_getElem? hj) a o hr
    rw [hhist, image_append_uncovered _ (by simpa using hlast), image_append_uncovered _ hdone]

theorem exec_init_hist_of_ok (h : exec .init s = .next t) (hst : t.status = 0x00#8) :
    t.hist = s.hist ++ (initWrites s.cfg).map (okRecord s.dev) := by
  rcases exec_hist_cases h with ⟨hc, -⟩ | ⟨-, a, ws, hws, hhist⟩ | ⟨hst', -⟩
  · exact absurd hst hc.ne_ok
  · obtain ⟨rfl, rfl⟩ := hws.of_init
    exact hhist
  · simp [hst] at hst'

/-- INIT's records after MODE1's, seen at one register: if they put no byte but `b` there, and `b` is there, it stays. -/
theorem chipRegister_after_init (s : State)
    (hbytes : ∀ w ∈ initRest s.cfg, byteAt (okRecord s.dev w) r = none ∨ byteAt (okRecord s.dev w) r = some b)
    (hheld : chipRegister s.dev (s.hist ++ [okRecord s.dev (regMode1, [s.cfg.mode1Init])]) r = .oneOf [b] ∨
      ∃ w ∈ initRest s.cfg, byteAt (okRecord s.dev w) r = some b) :
    chipRegister s.dev (s.hist ++ (initWrites s.cfg).map (okRecord s.dev)) r = .oneOf [b] := by
  rw [initWrites_eq, List.map_cons, List.append_cons]
  refine chipRegister_append_chip s.dev_ne_zero (autoIncrement_append_mode1 s.dev_ne_zero _)
    (List.forall_mem_map.mpr fun w hw => ⟨rfl, rfl, hbytes w hw⟩) (hheld.imp_right ?_)
  rintro ⟨w, hw, hb⟩
  exact ⟨_, List.mem_map_of_mem hw, hb⟩

theorem chipRegister_init_mode1 (s : State) :
    chipRegister s.dev (s.hist ++ (initWrites s.cfg).map (okRecord s.dev)) regMode1 = .oneOf [s.cfg.mode1Init] := by
  refine chipRegister_after_init s (fun w hw => .inl ?_) (.inl ?_)
  · rcases mem_initRest_iff.mp hw with rfl | ⟨n, hn, rfl⟩
    · exact byteAt_of_lt (show (0x00#8).toNat < (0x01#8).toNat by decide)
    · exact byteAt_channelRecord_outside s.dev 0 .ok hn (by simp)
  · exact chipRegister_append_ok_byte (x := okRecord s.dev (regMode1, [s.cfg.mode1Init])) rfl s.dev_ne_zero rfl rfl

theorem chipRegister_init_mode2 (s : State) :
    chipRegister s.dev (s.hist ++ (initWrites s.cfg).map (okRecord s.dev)) regMode2 = .oneOf [s.cfg.mode2Init] := by
  refine chipRegister_after_init s (fun w hw => ?_) (.inr ⟨_, mem_initRest_iff.mpr (.inl rfl), rfl⟩)
  rcases mem_initRest_iff.mp hw with rfl | ⟨n, hn, rfl⟩
  · exact .inr rfl
  · exact .inl (byteAt_channelRecord_outside s.dev 0 .ok hn (by simp; omega))

theorem chipRegister_init_channel (s : State) (h6 : 0x06 ≤ r.toNat) (h45 : r.toNat ≤ 0x45) :
    chipRegister s.dev (s.hist ++ (initWrites s.cfg).map (okRecord s.dev)) r = .oneOf [0x00#8] := by
  refine chipRegister_after_init s (fun w hw => ?_) (.inr ?_)
  · rcases mem_initRest_iff.mp hw with rfl | ⟨n, -, rfl⟩
    · exact .inl (byteAt_outside (by simp [okRecord]; omega))
    · exact byteAt_channelRecord_zero s.dev n .ok r
  · obtain ⟨n, k, hn, hk, hr⟩ : ∃ n k, n < 16 ∧ k < 4 ∧ 0x06 + 4 * n + k = r.toNat :=
      ⟨(r.toNat - 6) / 4, (r.toNat - 6) % 4, by omega, by omega, by omega⟩
    have hzero : (channelPayload 0)[k]? = some 0x00#8 := by
      interval_cases k <;> rfl
    have hb := byteAt_channelRecord s.dev .ok hn hzero
    rw [hr, BitVec.ofNat_toNat, BitVec.setWidth_eq] at hb
    exact ⟨_, mem_initRest_iff.mpr (.inr ⟨n, hn, rfl⟩), hb⟩

/-! ### What OK commands make known (R95, R116, R126) -/

/-- Where no tie arises, rounding to nearest is the floor of the value plus one half (R13). -/
theorem roundDiv_eq_floor (tie : Tie) (num : Int) {den : Nat} (hden : 0 < den)
    (htie : ∀ k : Int, 2 * num ≠ den * (2 * k + 1)) : roundDiv tie num den = (2 * num + den) / (2 * den) := by
  obtain ⟨q, r, hnum, h0, hlt, hcases⟩ := roundDiv_cases tie num hden
  have floor {n rest : Int} (h : rest + 2 * den * n = 2 * num + den) (h0 : 0 ≤ rest) (hlt : rest < 2 * den) :
      (2 * num + den) / (2 * den) = n :=
    ((Int.ediv_emod_unique (by omega)).mpr ⟨h, h0, hlt⟩).1
  rcases hcases with ⟨h, e⟩ | ⟨h, e⟩ | ⟨h, -⟩
  · exact e.trans (floor (rest := 2 * r + den) (by rw [hnum]; ring) (by omega) (by omega)).symm
  · exact e.trans (floor (rest := 2 * r - den) (by rw [hnum]; ring) (by omega) (by omega)).symm
  · refine absurd ?_ (htie q)
    rw [hnum]
    linear_combination h

/-- No frequency rounds a tie, since 2^12 does not divide 2 · 25000000, so the prescale is R117's floor. -/
theorem prescaleOf_eq_floor {hz : Nat} (h : 0 < hz) :
    prescaleOf hz = (25000000 + 2048 * (hz : Int)) / (4096 * (hz : Int)) - 1 := by
  have htie : ∀ k : Int, 2 * 25000000 ≠ ((4096 * hz : Nat) : Int) * (2 * k + 1) := by
    intro k hk
    rw [Nat.cast_mul, mul_assoc] at hk
    omega
  have hround : roundNe oscHz (period * hz) = _ := roundDiv_eq_floor .halfEven 25000000 (Nat.mul_pos (by decide) h) htie
  rw [prescaleOf, hround, ← Int.mul_ediv_mul_of_pos (25000000 + 2048 * (hz : Int)) (4096 * hz) (show (0 : Int) < 2 by decide)]
  push_cast
  ring_nf

theorem prescaleOf_zero : prescaleOf 0 = 0 := by decide

theorem exec_setter_hist_of_ok (hi : i ≠ .init) (h : exec i s = .next t) (hst : t.status = 0x00#8) :
    ∃ a r p, WriteOf s a r p i ∧ t.hist = s.hist ++ [⟨a, r, p, .ok⟩] := by
  rcases exec_setter_hist_cases hi h with ⟨hc, -⟩ | ⟨a, r, p, o, hw, hhist, ⟨-, rfl⟩ | ⟨hfail, -⟩⟩
  · exact absurd hst hc.ne_ok
  · exact ⟨a, r, p, hw, hhist⟩
  · simp [hst] at hfail

/-- The register of an OK write of one byte holds it. -/
theorem chipRegister_ok_byte (s : State) (hhist : t.hist = s.hist ++ [⟨s.dev, r, [b], .ok⟩]) :
    chipRegister s.cfg.devAddr.addr t.hist r = .oneOf [b] := by
  rw [hhist]
  exact chipRegister_append_ok_byte (x := ⟨s.dev, r, [b], .ok⟩) rfl s.dev_ne_zero rfl rfl

theorem u8_prescale_toNat {v : Int} (h3 : 3 ≤ v) (h255 : v ≤ 255) : ((u8 v.toNat).toNat : Int) = v := by
  rw [u8_toNat_of_le (by omega)]
  omega

/-- Settles O52: the records of INIT are followed register by register, the others write one byte. -/
theorem okWritesMakeTheChipKnown : Obligations.OkWritesMakeTheChipKnown := by
  intro i s t h hst known
  by_cases hi : i = .init
  · subst hi
    have hhist := exec_init_hist_of_ok h hst
    simp only [known, hhist]
    exact ⟨chipRegister_init_mode1 s, chipRegister_init_mode2 s, fun r => chipRegister_init_channel s⟩
  obtain ⟨a, r, p, hw, hhist⟩ := exec_setter_hist_of_ok hi h hst
  cases i with
  | init => exact absurd rfl hi
  | setDuty ch d => trivial
  | setDutyRaw ch n => trivial
  | setFreq hz =>
    obtain ⟨-, rfl, rfl, h3, h255, rfl⟩ := hw
    have hpos : 0 < hz := by
      rcases Nat.eq_zero_or_pos hz with rfl | hpos
      · simp [prescaleOf_zero] at h3
      · exact hpos
    exact ⟨_, chipRegister_ok_byte s hhist, (u8_prescale_toNat h3 h255).trans (prescaleOf_eq_floor hpos)⟩
  | setPrescaleRaw v =>
    obtain ⟨-, rfl, rfl, h3, h255, rfl⟩ := hw
    exact ⟨_, chipRegister_ok_byte s hhist, u8_prescale_toNat h3 h255⟩
  | setSleep sl =>
    obtain ⟨rfl, rfl, rfl⟩ := hw
    exact chipRegister_ok_byte s hhist
  | resetAll => trivial
  | shutdown =>
    obtain ⟨rfl, rfl, rfl⟩ := hw
    exact chipRegister_ok_byte s hhist

end Sys2Proof.Machine

/-! How knowledge of auto-increment moves (spec 10_state R34, R179). -/

namespace Sys2Proof.Machine

variable {i : Instr} {s t : State} {a : Addr7} {r : Byte} {p : List Byte}

/-- The commands that write a channel or PRESCALE. -/
def WritesNoMode (i : Instr) : Prop :=
  (∃ ch d, i = .setDuty ch d) ∨ (∃ ch n, i = .setDutyRaw ch n) ∨ (∃ hz, i = .setFreq hz) ∨ (∃ v, i = .setPrescaleRaw v)

/-- The commands other than INIT that write MODE1. -/
def WritesMode (i : Instr) : Prop := (∃ sl : Bool, i = .setSleep sl) ∨ i = .shutdown

theorem channelReg_ne_regMode1 {ch : Nat} (hch : ch < 16) : channelReg ch ≠ regMode1 := by
  intro h
  have := congrArg BitVec.toNat h
  simp [channelReg_toNat hch] at this

theorem WriteOf.reg_ne_regMode1 (h : WriteOf s a r p i) (hi : WritesNoMode i) :
    a = s.cfg.devAddr.addr ∧ r ≠ regMode1 := by
  rcases hi with ⟨ch, d, rfl⟩ | ⟨ch, n, rfl⟩ | ⟨hz, rfl⟩ | ⟨v, rfl⟩
  · obtain ⟨hch, rfl, rfl, -⟩ := h
    exact ⟨rfl, channelReg_ne_regMode1 hch⟩
  · obtain ⟨hch, rfl, rfl, -⟩ := h
    exact ⟨rfl, channelReg_ne_regMode1 hch⟩
  · obtain ⟨-, rfl, rfl, -⟩ := h
    exact ⟨rfl, by decide⟩
  · obtain ⟨-, rfl, rfl, -⟩ := h
    exact ⟨rfl, by decide⟩

theorem WriteOf.writesMode1 (h : WriteOf s a r p i) (hi : WritesMode i) :
    writesMode1 s.cfg.devAddr.addr ⟨a, r, p, .ok⟩ = true := by
  rcases hi with ⟨sl, rfl⟩ | rfl
  · obtain ⟨rfl, rfl, rfl⟩ := h
    simp [Machine.writesMode1]
  · obtain ⟨rfl, rfl, rfl⟩ := h
    simp [Machine.writesMode1]

theorem WriteOf.isBroadcastReset (h : WriteOf s a r p .resetAll) : isBroadcastReset ⟨a, r, p, .ok⟩ = true := by
  obtain ⟨rfl, rfl, rfl⟩ := h
  decide

theorem autoIncrement_of_ok_mode (hi : WritesMode i) (h : exec i s = .next t) (hst : t.status = 0x00#8) :
    autoIncrement s.cfg.devAddr.addr t.hist = true := by
  have hne : i ≠ .init := by
    rcases hi with ⟨sl, rfl⟩ | rfl <;> exact Instr.noConfusion
  obtain ⟨a, r, p, hw, hhist⟩ := exec_setter_hist_of_ok hne h hst
  rw [hhist, autoIncrement_append_one, autoIncrementStep_mode1 s.dev_ne_zero (hw.writesMode1 hi)]

theorem autoIncrement_of_ok_init (h : exec .init s = .next t) (hst : t.status = 0x00#8) :
    autoIncrement s.cfg.devAddr.addr t.hist = true := by
  have hall : (initWrites s.cfg).take 18 = initWrites s.cfg := List.take_of_length_le (initWrites_length s.cfg).le
  rw [exec_init_hist_of_ok h hst, ← hall]
  exact autoIncrement_append_init_take s (by decide)

theorem autoIncrement_of_ok_resetAll (h : exec .resetAll s = .next t) (hst : t.status = 0x00#8) :
    autoIncrement s.cfg.devAddr.addr t.hist = false := by
  obtain ⟨a, r, p, hw, hhist⟩ := exec_setter_hist_of_ok Instr.noConfusion h hst
  rw [hhist, autoIncrement_append_one, autoIncrementStep_broadcastReset hw.isBroadcastReset]

theorem autoIncrement_of_not_ok (hi : i ≠ .init) (h : exec i s = .next t) (hst : t.status ≠ 0x00#8) :
    autoIncrement s.cfg.devAddr.addr t.hist = autoIncrement s.cfg.devAddr.addr s.hist := by
  rcases exec_setter_hist_cases hi h with ⟨-, hhist⟩ | ⟨a, r, p, o, -, hhist, ⟨hok, -⟩ | ⟨-, ho⟩⟩
  · rw [hhist]
  · exact absurd hok hst
  · rw [hhist, autoIncrement_append_one, autoIncrementStep_fail ho]

/-- An INIT cut short leaves what is known, or turns it on by its first write. -/
theorem autoIncrement_of_init_not_ok (h : exec .init s = .next t) (hst : t.status ≠ 0x00#8) :
    autoIncrement s.cfg.devAddr.addr t.hist = autoIncrement s.cfg.devAddr.addr s.hist ∨
      autoIncrement s.cfg.devAddr.addr t.hist = true := by
  rcases exec_hist_cases h with ⟨-, hhist⟩ | ⟨hok, -⟩ | ⟨-, a, ws, j, w, o, hws, -, ho, hhist⟩
  · rw [hhist]
    exact .inl rfl
  · exact absurd hok hst
  · obtain ⟨rfl, rfl⟩ := hws.of_init
    rw [hhist, autoIncrement_append_one, autoIncrementStep_fail ho]
    rcases Nat.eq_zero_or_pos j with rfl | hj
    · left
      simp
    · exact .inr (autoIncrement_append_init_take s hj)

theorem autoIncrement_of_writesNoMode (hi : WritesNoMode i) (h : exec i s = .next t) :
    autoIncrement s.cfg.devAddr.addr t.hist = autoIncrement s.cfg.devAddr.addr s.hist := by
  have hne : i ≠ .init := by
    rcases hi with ⟨ch, d, rfl⟩ | ⟨ch, n, rfl⟩ | ⟨hz, rfl⟩ | ⟨v, rfl⟩ <;> exact Instr.noConfusion
  rcases exec_setter_hist_cases hne h with ⟨-, hhist⟩ | ⟨a, r, p, o, hw, hhist, -⟩
  · rw [hhist]
  · obtain ⟨ha, hr⟩ := hw.reg_ne_regMode1 hi
    rw [hhist, autoIncrement_append_one, autoIncrementStep_otherRegister ha s.dev_ne_zero hr]

/-- Settles O53: one lemma per clause, each of them the effect of the command's last record. -/
theorem autoIncrementFollowsMode1 : Obligations.AutoIncrementFollowsMode1 := by
  intro i s t h now before
  refine ⟨?_, ?_, fun hst hi => autoIncrement_of_not_ok hi h hst, ?_, fun hi => autoIncrement_of_writesNoMode hi h⟩
  · rintro hst (rfl | hi)
    · exact autoIncrement_of_ok_init h hst
    · exact autoIncrement_of_ok_mode hi h hst
  · rintro hst rfl
    exact autoIncrement_of_ok_resetAll h hst
  · rintro hst rfl
    exact autoIncrement_of_init_not_ok h hst

end Sys2Proof.Machine

/-! The decoder and the encoder as inverses, the match/mask table, illegal words and the assembler (spec 30_encoding). -/

namespace Sys2Proof.Machine

variable {w : CmdWord} {i : Instr}

/-! ### The fields of an accepted word (R62, R63) -/

/-- OPC, CH and OPD of `w` are those of the command (R62, R63). -/
def FieldsSpell (w : CmdWord) : Instr → Prop
  | .init             => (fieldOpc w).toNat = 1 ∧ fieldCh w = 0 ∧ fieldOpd w = 0
  | .setDuty ch d     => (fieldOpc w).toNat = 2 ∧ (fieldCh w).toNat = ch ∧ (fieldOpd w).toInt = d
  | .setDutyRaw ch n  => (fieldOpc w).toNat = 3 ∧ (fieldCh w).toNat = ch ∧ (fieldOpd w).toInt = n
  | .setFreq hz       => (fieldOpc w).toNat = 4 ∧ fieldCh w = 0 ∧ (fieldOpd w).toNat = hz
  | .setPrescaleRaw v => (fieldOpc w).toNat = 5 ∧ fieldCh w = 0 ∧ (fieldOpd w).toInt = v
  | .setSleep sl      => (fieldOpc w).toNat = 6 ∧ fieldCh w = 0 ∧ fieldOpd w = BitVec.ofNat 32 sl.toNat
  | .resetAll         => (fieldOpc w).toNat = 7 ∧ fieldCh w = 0 ∧ fieldOpd w = 0
  | .shutdown         => (fieldOpc w).toNat = 8 ∧ fieldCh w = 0 ∧ fieldOpd w = 0

/-- A word with no bit but bit 0 is that bit. -/
theorem eq_ofNat_bit0 {x : BitVec 32} (h : x >>> 1 = 0) : x = BitVec.ofNat 32 (x.getLsbD 0).toNat := by
  have h0 : x.toNat / 2 = 0 := by simpa [Nat.shiftRight_eq_div_pow] using congrArg BitVec.toNat h
  apply BitVec.eq_of_toNat_eq
  rw [BitVec.getLsbD, Nat.testBit_zero, BitVec.toNat_ofNat]
  rcases Nat.mod_two_eq_zero_or_one x.toNat with h2 | h2 <;> simp [h2] <;> omega

theorem ofNat_bool_shift (sl : Bool) : BitVec.ofNat 32 sl.toNat >>> 1 = 0 := by cases sl <;> rfl

theorem ofNat_bool_bit0 (sl : Bool) : (BitVec.ofNat 32 sl.toNat).getLsbD 0 = sl := by cases sl <;> rfl

/-- The decoder accepts a word as a command exactly when RSV is 0 and the other fields are the command's. -/
theorem decode_eq_ok_iff : decode w = .ok i ↔ fieldRsv w = 0 ∧ FieldsSpell w i := by
  constructor
  · intro h
    obtain ⟨hr, hcases⟩ := decode_ok_cases h
    refine ⟨hr, ?_⟩
    rcases hcases with ⟨ho, rfl, hc, hd⟩ | ⟨ho, rfl⟩ | ⟨ho, rfl⟩ | ⟨ho, rfl, hc⟩ | ⟨ho, rfl, hc⟩ | ⟨ho, rfl, hc, hd⟩ |
      ⟨ho, rfl, hc, hd⟩ | ⟨ho, rfl, hc, hd⟩
    · exact ⟨ho, hc, hd⟩
    · exact ⟨ho, rfl, rfl⟩
    · exact ⟨ho, rfl, rfl⟩
    · exact ⟨ho, hc, rfl⟩
    · exact ⟨ho, hc, rfl⟩
    · exact ⟨ho, hc, eq_ofNat_bit0 hd⟩
    · exact ⟨ho, hc, hd⟩
    · exact ⟨ho, hc, hd⟩
  · rintro ⟨hr, hf⟩
    rw [decode, if_pos hr]
    cases i with
    | init | resetAll | shutdown =>
      obtain ⟨ho, hc, hd⟩ := hf
      simp [ho, withoutOperands, withoutChannel, hc, hd]
    | setDuty ch d | setDutyRaw ch n =>
      obtain ⟨ho, rfl, rfl⟩ := hf
      simp [ho]
    | setFreq hz | setPrescaleRaw v =>
      obtain ⟨ho, hc, rfl⟩ := hf
      simp [ho, withoutChannel, hc]
    | setSleep sl =>
      obtain ⟨ho, hc, hd⟩ := hf
      simp only [ho, decodeSleep, withoutChannel, hc, hd, ofNat_bool_shift, ofNat_bool_bit0, if_true]

/-! ### Operand ranges (R12, R62) -/

theorem chInRange_iff {ch : Nat} : chInRange ch = true ↔ ch < 2 ^ 8 := decide_eq_true_iff

theorem zextInRange_iff {v : Nat} : zextInRange v = true ↔ v < 2 ^ 32 := decide_eq_true_iff

theorem sextInRange_iff {v : Int} : sextInRange v = true ↔ -2 ^ 31 ≤ v ∧ v < 2 ^ 31 := by
  rw [sextInRange, Bool.and_eq_true, decide_eq_true_iff, decide_eq_true_iff]

theorem sextInRange_toInt (x : BitVec 32) : sextInRange x.toInt = true :=
  sextInRange_iff.mpr ⟨x.le_toInt, x.toInt_lt⟩

theorem chInRange_toNat (x : BitVec 8) : chInRange x.toNat = true := chInRange_iff.mpr x.isLt

theorem zextInRange_toNat (x : BitVec 32) : zextInRange x.toNat = true := zextInRange_iff.mpr x.isLt

theorem toInt_ofInt_of_sextInRange {v : Int} (h : sextInRange v = true) : (BitVec.ofInt 32 v).toInt = v := by
  obtain ⟨hlo, hhi⟩ := sextInRange_iff.mp h
  exact BitVec.toInt_ofInt_eq_self (by decide) hlo hhi

theorem toNat_ofNat_of_chInRange {ch : Nat} (h : chInRange ch = true) : (BitVec.ofNat 8 ch).toNat = ch :=
  Nat.mod_eq_of_lt (chInRange_iff.mp h)

theorem toNat_ofNat_of_zextInRange {v : Nat} (h : zextInRange v = true) : (BitVec.ofNat 32 v).toNat = v :=
  Nat.mod_eq_of_lt (zextInRange_iff.mp h)

/-! ### Decoding and encoding are inverse (R61 to R63) -/

theorem fieldRsv_encode (i : Instr) : fieldRsv (encode i) = 0 := by
  cases i <;> exact fieldRsv_wordF0 _ _ _

/-- The fields of an encoded command are its own, if its operands fit them. -/
theorem fieldsSpell_encode (h : i.wellFormed = true) : FieldsSpell (encode i) i := by
  cases i with
  | init | setSleep _ | resetAll | shutdown => simp [FieldsSpell, encode]
  | setDuty ch d | setDutyRaw ch n =>
    obtain ⟨hch, hd⟩ := (Bool.and_eq_true _ _).mp h
    simp [FieldsSpell, encode, toNat_ofNat_of_chInRange hch, toInt_ofInt_of_sextInRange hd, -BitVec.toNat_ofNat,
      -BitVec.toInt_ofInt]
  | setFreq hz => simp [FieldsSpell, encode, toNat_ofNat_of_zextInRange h, -BitVec.toNat_ofNat]
  | setPrescaleRaw v => simp [FieldsSpell, encode, toInt_ofInt_of_sextInRange h, -BitVec.toInt_ofInt]

/-- Settles O1: the encoded word has RSV 0 and the command's fields, and that is what the decoder accepts. -/
theorem decodeOfEncode : Obligations.DecodeOfEncode :=
  fun i h => decode_eq_ok_iff.mpr ⟨fieldRsv_encode i, fieldsSpell_encode h⟩

theorem FieldsSpell.wellFormed (h : FieldsSpell w i) : i.wellFormed = true := by
  cases i with
  | init | setSleep _ | resetAll | shutdown => rfl
  | setDuty ch d | setDutyRaw ch n =>
    obtain ⟨-, rfl, rfl⟩ := h
    exact (Bool.and_eq_true _ _).mpr ⟨chInRange_toNat _, sextInRange_toInt _⟩
  | setFreq hz =>
    obtain ⟨-, -, rfl⟩ := h
    exact zextInRange_toNat _
  | setPrescaleRaw v =>
    obtain ⟨-, -, rfl⟩ := h
    exact sextInRange_toInt _

/-- An F0 word is its three free fields put together. -/
theorem wordF0_eq (hr : fieldRsv w = 0) {opc ch : BitVec 8} {opd : BitVec 32} (ho : (fieldOpc w).toNat = opc.toNat)
    (hc : fieldCh w = ch) (hd : fieldOpd w = opd) : wordF0 opc ch opd = w := by
  rw [← BitVec.eq_of_toNat_eq ho, ← hc, ← hd, wordF0_fields hr]

theorem FieldsSpell.encode_eq (hr : fieldRsv w = 0) (h : FieldsSpell w i) : encode i = w := by
  cases i with
  | init | setSleep _ | resetAll | shutdown =>
    obtain ⟨ho, hc, hd⟩ := h
    exact wordF0_eq hr ho hc hd
  | setDuty ch d | setDutyRaw ch n =>
    obtain ⟨ho, rfl, rfl⟩ := h
    exact wordF0_eq hr ho (by simp) (by simp)
  | setFreq hz | setPrescaleRaw v =>
    obtain ⟨ho, hc, rfl⟩ := h
    exact wordF0_eq hr ho hc (by simp)

/-- Settles O2: the fields of an accepted word determine it, RSV being 0. -/
theorem encodeOfDecode : Obligations.EncodeOfDecode := by
  intro w i h
  obtain ⟨hr, hf⟩ := decode_eq_ok_iff.mp h
  exact ⟨hf.wellFormed, hf.encode_eq hr⟩

/-! ### The match/mask table (R64, R65) -/

/-- The table names each mnemonic once. -/
theorem opcodeTable_eq_of_mnemonic_eq :
    ∀ row ∈ opcodeTable, ∀ other ∈ opcodeTable, other.mnemonic = row.mnemonic → other = row := by
  decide

/-- The row of a command selects its word. -/
theorem encoded_in_row (i : Instr) : Laws.EncodedInRow.Statement i := by
  cases i with
  | init => exact Laws.EncodedInRow.init
  | setDuty ch d => exact Laws.EncodedInRow.setDuty ch d
  | setDutyRaw ch n => exact Laws.EncodedInRow.setDutyRaw ch n
  | setFreq hz => exact Laws.EncodedInRow.setFreq hz
  | setPrescaleRaw v => exact Laws.EncodedInRow.setPrescaleRaw v
  | setSleep sl => exact Laws.EncodedInRow.setSleep sl
  | resetAll => exact Laws.EncodedInRow.resetAll
  | shutdown => exact Laws.EncodedInRow.shutdown

/-- A row looks at each field of a word by itself. -/
theorem fields_of_selects {row : OpcodeRow} (h : row.selects w = true) :
    fieldOpc w &&& fieldOpc row.mask = fieldOpc row.pattern ∧ fieldCh w &&& fieldCh row.mask = fieldCh row.pattern ∧
      fieldRsv w &&& fieldRsv row.mask = fieldRsv row.pattern ∧
      fieldOpd w &&& fieldOpd row.mask = fieldOpd row.pattern := by
  rw [← show w &&& row.mask = row.pattern from beq_iff_eq.mp h]
  exact ⟨BitVec.extractLsb'_and.symm, BitVec.extractLsb'_and.symm, BitVec.extractLsb'_and.symm,
    BitVec.extractLsb'_and.symm⟩

/-- A field that the mask fixes in full is the pattern's. -/
theorem eq_of_and_allOnes {n : Nat} {x m p q : BitVec n} (h : x &&& m = p) (hm : m = BitVec.allOnes n) (hp : p = q) :
    x = q := by
  rw [← hp, ← h, hm, BitVec.and_allOnes]

/-- Every row fixes OPC and demands RSV 0. -/
theorem opcodeTable_masks :
    ∀ row ∈ opcodeTable, fieldOpc row.mask = BitVec.allOnes 8 ∧ fieldRsv row.mask = BitVec.allOnes 16 ∧
      fieldRsv row.pattern = 0 := by
  decide

/-- SET_SLEEP's mask leaves bit 0 of OPD free. -/
theorem eq_ofNat_bit0_of_masked {x : BitVec 32} (h : x &&& 0xFFFFFFFE#32 = 0) :
    x = BitVec.ofNat 32 (x.getLsbD 0).toNat := by
  have hmask : (x &&& 0xFFFFFFFE#32) >>> 1 = x >>> 1 := by
    apply BitVec.eq_of_toNat_eq
    have hlt : x.toNat >>> 1 < 2 ^ 31 := by rw [Nat.shiftRight_eq_div_pow]; omega
    rw [BitVec.toNat_ushiftRight, BitVec.toNat_ushiftRight, BitVec.toNat_and, Nat.shiftRight_and_distrib]
    exact (Nat.and_two_pow_sub_one_eq_mod _ 31).trans (Nat.mod_eq_of_lt hlt)
  exact eq_ofNat_bit0 (by rw [← hmask, h]; rfl)

/-- A word that a row selects decodes to a command of that row. -/
theorem decode_of_selects {row : OpcodeRow} (hrow : row ∈ opcodeTable) (h : row.selects w = true) :
    ∃ i : Instr, decode w = .ok i ∧ row.mnemonic = i.mnemonic := by
  obtain ⟨ho, hc, hr, hd⟩ := fields_of_selects h
  obtain ⟨hom, hrm, hrp⟩ := opcodeTable_masks row hrow
  have hopc : (fieldOpc w).toNat = (fieldOpc row.pattern).toNat := by rw [eq_of_and_allOnes ho hom rfl]
  have hrsv : fieldRsv w = 0 := eq_of_and_allOnes hr hrm hrp
  have decodes {i : Instr} (hf : FieldsSpell w i) : decode w = .ok i := decode_eq_ok_iff.mpr ⟨hrsv, hf⟩
  simp only [opcodeTable, List.mem_cons, List.not_mem_nil, or_false] at hrow
  rcases hrow with rfl | rfl | rfl | rfl | rfl | rfl | rfl | rfl
  · exact ⟨.init, decodes ⟨hopc, eq_of_and_allOnes hc rfl rfl, eq_of_and_allOnes hd rfl rfl⟩, rfl⟩
  · exact ⟨.setDuty _ _, decodes ⟨hopc, rfl, rfl⟩, rfl⟩
  · exact ⟨.setDutyRaw _ _, decodes ⟨hopc, rfl, rfl⟩, rfl⟩
  · exact ⟨.setFreq _, decodes ⟨hopc, eq_of_and_allOnes hc rfl rfl, rfl⟩, rfl⟩
  · exact ⟨.setPrescaleRaw _, decodes ⟨hopc, eq_of_and_allOnes hc rfl rfl, rfl⟩, rfl⟩
  · exact ⟨.setSleep _, decodes ⟨hopc, eq_of_and_allOnes hc rfl rfl, eq_ofNat_bit0_of_masked hd⟩, rfl⟩
  · exact ⟨.resetAll, decodes ⟨hopc, eq_of_and_allOnes hc rfl rfl, eq_of_and_allOnes hd rfl rfl⟩, rfl⟩
  · exact ⟨.shutdown, decodes ⟨hopc, eq_of_and_allOnes hc rfl rfl, eq_of_and_allOnes hd rfl rfl⟩, rfl⟩

/-- Settles O3: an accepted word is the encoded word of its command and so lies in its row; a row that selects a word
makes it accepted, with the row's mnemonic. -/
theorem decodeAgreesWithTable : Obligations.DecodeAgreesWithTable := by
  intro w
  cases hd : decode w with
  | ok i =>
    obtain ⟨-, henc⟩ := encodeOfDecode w i hd
    obtain ⟨row, hrow, hname, hsel⟩ := encoded_in_row i
    refine .inl ⟨i, rfl, row, hrow, hname, henc ▸ hsel, fun other hother hosel => ?_⟩
    obtain ⟨j, hj, hjname⟩ := decode_of_selects hother hosel
    obtain rfl : i = j := Except.ok.inj (hd.symm.trans hj)
    exact opcodeTable_eq_of_mnemonic_eq row hrow other hother (hjname.trans hname.symm)
  | error e =>
    refine .inr ⟨⟨e, rfl⟩, fun row hrow => Bool.eq_false_iff.mpr fun hsel => ?_⟩
    obtain ⟨i, hi, -⟩ := decode_of_selects hrow hsel
    exact absurd (hd.symm.trans hi) nofun

/-! ### Illegal words (R66) -/

/-- Every opcode 1 to 8 has a command, and RSV, CH and OPD must be 0 where the command does not read them. -/
theorem exists_decode_ok_iff (w : CmdWord) :
    (∃ i : Instr, decode w = .ok i) ↔
      (fieldRsv w).toNat = 0 ∧ 1 ≤ (fieldOpc w).toNat ∧ (fieldOpc w).toNat ≤ 8 ∧
        ((fieldCh w).toNat = 0 ∨ (fieldOpc w).toNat = 2 ∨ (fieldOpc w).toNat = 3) ∧
        ((fieldOpd w).toNat = 0 ∨ ¬ ((fieldOpc w).toNat = 1 ∨ (fieldOpc w).toNat = 7 ∨ (fieldOpc w).toNat = 8)) ∧
        ((fieldOpd w).toNat / 2 = 0 ∨ (fieldOpc w).toNat ≠ 6) := by
  constructor
  · rintro ⟨i, h⟩
    obtain ⟨hr, hf⟩ := decode_eq_ok_iff.mp h
    cases i with
    | init | resetAll | shutdown =>
      obtain ⟨ho, hc, hd⟩ := hf
      simp [hr, ho, hc, hd]
    | setDuty ch d | setDutyRaw ch n =>
      obtain ⟨ho, -, -⟩ := hf
      simp [hr, ho]
    | setFreq hz | setPrescaleRaw v =>
      obtain ⟨ho, hc, -⟩ := hf
      simp [hr, ho, hc]
    | setSleep sl =>
      obtain ⟨ho, hc, hd⟩ := hf
      cases sl <;> simp [hr, ho, hc, hd]
  · rintro ⟨hr, hlo, hhi, hc, hd, hsl⟩
    have decodes {i : Instr} (hf : FieldsSpell w i) : ∃ i, decode w = .ok i :=
      ⟨i, decode_eq_ok_iff.mpr ⟨BitVec.eq_of_toNat_eq hr, hf⟩⟩
    have ch0 (h2 : (fieldOpc w).toNat ≠ 2) (h3 : (fieldOpc w).toNat ≠ 3) : fieldCh w = 0 :=
      BitVec.eq_of_toNat_eq (hc.resolve_right (by simp [h2, h3]))
    have opd0 (h : (fieldOpc w).toNat = 1 ∨ (fieldOpc w).toNat = 7 ∨ (fieldOpc w).toNat = 8) : fieldOpd w = 0 :=
      BitVec.eq_of_toNat_eq (hd.resolve_right (not_not_intro h))
    interval_cases h : (fieldOpc w).toNat
    · exact decodes (i := .init) ⟨h, ch0 (by omega) (by omega), opd0 (by omega)⟩
    · exact decodes (i := .setDuty _ _) ⟨h, rfl, rfl⟩
    · exact decodes (i := .setDutyRaw _ _) ⟨h, rfl, rfl⟩
    · exact decodes (i := .setFreq _) ⟨h, ch0 (by omega) (by omega), rfl⟩
    · exact decodes (i := .setPrescaleRaw _) ⟨h, ch0 (by omega) (by omega), rfl⟩
    · have hshift : fieldOpd w >>> 1 = 0 := BitVec.eq_of_toNat_eq (hsl.resolve_right (not_not_intro rfl))
      exact decodes (i := .setSleep _) ⟨h, ch0 (by omega) (by omega), eq_ofNat_bit0 hshift⟩
    · exact decodes (i := .resetAll) ⟨h, ch0 (by omega) (by omega), opd0 (by omega)⟩
    · exact decodes (i := .shutdown) ⟨h, ch0 (by omega) (by omega), opd0 (by omega)⟩

theorem exists_decode_error_iff (w : CmdWord) :
    (∃ e : Illegal, decode w = .error e) ↔ ¬ ∃ i : Instr, decode w = .ok i := by
  cases decode w <;> simp

/-- Settles O4: a word is illegal when it has no command, and then `execute` only stores the status. -/
theorem illegalWordsAreRefusedWhole : Obligations.IllegalWordsAreRefusedWhole := by
  intro w
  refine ⟨?_, fun e s rest hd hin => (step_of_command hin).trans (execute_of_illegal hd _)⟩
  rw [← fieldOpc_toNat, ← fieldCh_toNat, ← fieldRsv_toNat, ← fieldOpd_toNat, exists_decode_error_iff,
    exists_decode_ok_iff]
  omega

/-! ### The assembler (R68, R69) -/

theorem encodeChecked_eq_some_iff : encodeChecked i = some w ↔ i.wellFormed = true ∧ encode i = w := by
  rw [encodeChecked]
  split_ifs with h <;> simp [h]

/-- A checked word decodes. -/
theorem decode_of_encodeChecked (h : encodeChecked i = some w) : decode w = .ok i := by
  obtain ⟨hwf, rfl⟩ := encodeChecked_eq_some_iff.mp h
  exact decodeOfEncode i hwf

/-- But for `.word64`, the assembler has no word that is not a checked one. -/
theorem assemble_cases {a : Asm} (h : assemble a = some w) :
    (∃ x, a = .word64 x) ∨ ∃ i : Instr, encodeChecked i = some w := by
  cases a with
  | word64 x => exact .inl ⟨x, rfl⟩
  | init | setPrescaleRaw _ | resetAll | shutdown | sleep | wake => exact .inr ⟨_, h⟩
  | setDuty ch q =>
    obtain ⟨c, -, h⟩ := Option.bind_eq_some_iff.mp h
    obtain ⟨d, -, h⟩ := Option.bind_eq_some_iff.mp h
    exact .inr ⟨_, h⟩
  | setDutyRaw _ _ | setFreq _ | zero _ | setDutyF _ _ =>
    obtain ⟨n, -, h⟩ := Option.bind_eq_some_iff.mp h
    exact .inr ⟨_, h⟩
  | setSleep sl =>
    rw [assemble] at h
    split_ifs at h
    · exact .inr ⟨_, h⟩
    · exact .inr ⟨_, h⟩

/-- R8's ONE_Q as a power of two. -/
theorem setDutyF_scale (x : Rat) : x * 16777216 = x * 2 ^ 24 := by norm_num

theorem assemble_setDutyF_of_inRange (ch : Int) {x : Rat} (hlo : -2 ^ 31 ≤ roundNeRat (x * 2 ^ 24))
    (hhi : roundNeRat (x * 2 ^ 24) < 2 ^ 31) :
    assemble (.setDutyF ch x) = assemble (.setDuty ch (roundNeRat (x * 2 ^ 24))) := by
  have hq : patternOrSigned (roundNeRat (x * 2 ^ 24)) = some (roundNeRat (x * 2 ^ 24)) := if_pos ⟨hlo, hhi⟩
  simp only [assemble, setDutyF_scale, hq, Option.bind_some, Option.bind_eq_bind]

theorem assemble_setDutyF_of_outOfRange (ch : Int) {x : Rat}
    (h : roundNeRat (x * 2 ^ 24) < -2 ^ 31 ∨ 2 ^ 31 ≤ roundNeRat (x * 2 ^ 24)) : assemble (.setDutyF ch x) = none := by
  have hq : ¬ sextInRange (roundNeRat (x * 2 ^ 24)) = true := by
    rw [sextInRange_iff]
    omega
  simp [assemble, setDutyF_scale, encodeChecked, Instr.wellFormed, hq]

/-- Settles O7: what assembles is a checked word, and a checked word decodes; each pseudo-instruction assembles by the
same checks as its expansion. -/
theorem assemblerSpellsLegalWords : Obligations.AssemblerSpellsLegalWords := by
  refine ⟨fun a w h => ?_, rfl, rfl, fun _ => rfl, fun ch _ => assemble_setDutyF_of_inRange ch,
    fun ch _ => assemble_setDutyF_of_outOfRange ch⟩
  rcases assemble_cases h with hword | ⟨i, hi⟩
  · exact .inl hword
  · exact .inr ⟨i, decode_of_encodeChecked hi⟩

/-! ### The examples (R70) -/

/-- Settles O6, by running the assembler and the decoder on the twelve lines and words. -/
theorem exampleLinesAndWords : Obligations.ExampleLinesAndWords := by
  refine ⟨?_, ?_⟩
  · decide +kernel
  · decide

end Sys2Proof.Machine

/-! The commands' rules: how the bus ends a write, and what each command answers to it (spec 40_i2c_master R81 to R86, 41_init
to 44_reset_shutdown). -/

namespace Sys2Proof.Machine

variable {i : Instr} {s t : State} {a : Addr7} {r : Byte} {p : List Byte} {e e' : BusEnding}

/-! ### The bus write (R81, R83, R85) -/

/-- The bus goes one way only: outcome and number of answers used leave no choice but the flag of an ERR, and that is
the bus's answer. -/
theorem happens_unique (h : e.Happens a r p s) (h' : e'.Happens a r p s) : e' = e := by
  have htransfer := (transfer_of_happens h').symm.trans (transfer_of_happens h)
  injection htransfer with houtcome _ hused
  cases e with
  | acked => cases e' with
    | acked => rfl
    | _ => simp [BusEnding.outcome] at houtcome
  | nackAt k => cases e' with
    | nackAt k' => simpa [BusEnding.outcome] using houtcome
    | _ => simp [BusEnding.outcome] at houtcome
  | errAt k stop => cases e' with
    | errAt k' stop' =>
      obtain rfl : k' = k := Nat.succ.inj hused
      obtain ⟨-, -, hanswer⟩ := h
      obtain ⟨-, -, hanswer'⟩ := h'
      simpa [hanswer] using hanswer'.symm
    | _ => simp [BusEnding.outcome] at houtcome
  | hangsAt k => cases e' with
    | hangsAt k' => exact congrArg BusEnding.hangsAt (Nat.succ.inj hused)
    | _ => simp [BusEnding.outcome] at houtcome

/-- Settles O12: some ending happens, no other one does, and it decides the write. -/
theorem busWriteEndsExactlyOneWay : Obligations.BusWriteEndsExactlyOneWay := by
  intro a r p s
  obtain ⟨e, h⟩ := exists_happens a r p s
  refine ⟨e, h, fun _ h' => happens_unique h h', ?_⟩
  cases e with
  | acked => exact busWrite_of_acked h
  | nackAt k => exact busWrite_of_fails h trivial
  | errAt k stop => exact busWrite_of_fails h trivial
  | hangsAt k => exact busWrite_of_hangs h trivial

/-- Byte 0 is twice the address: write bit 0 (R81). -/
theorem addressByte_eq (a : Addr7) : addressByte a = BitVec.ofNat 8 (a.toNat * 2) := by
  apply BitVec.eq_of_toNat_eq
  have := a.isLt
  simp only [addressByte, BitVec.toNat_append, BitVec.toNat_ofNat, Nat.shiftLeft_eq, Nat.zero_mod, Nat.or_zero]
  omega

/-- The framing of a transaction every byte of which is ACKed (R81). -/
theorem wire_acked (a : Addr7) (r : Byte) (p : List Byte) :
    BusEnding.acked.wire a r p =
      [.start, .byte (BitVec.ofNat 8 (a.toNat * 2)), .byte r] ++ p.map .byte ++ [.stop] := by
  rw [BusEnding.wire, sentBytes, ← frameBytes_length a r p, List.take_length, frameBytes, addressByte_eq]
  rfl

/-- Settles O13: the ending is `acked`, whose wire is the frame between START and STOP. -/
theorem transactionFraming : Obligations.TransactionFraming := by
  intro a r p s h
  rw [busWrite_of_acked h, BusEnding.after, wire_acked]
  rfl

/-! ### What a command answers to each ending of its write (R86, R87) -/

theorem busWriteThen_endings {onOk onFail : State → StepResult} (h : e.Happens a r p s) :
    (e = .acked → busWriteThen a r p onOk onFail s = onOk (e.after a r p s)) ∧
    (e.Fails → busWriteThen a r p onOk onFail s = onFail (e.after a r p s)) ∧
    (e.Hangs → busWriteThen a r p onOk onFail s = .fault (.busNeverAnswers (e.after a r p s))) := by
  refine ⟨?_, busWriteThen_of_fails h, busWriteThen_of_hangs h⟩
  rintro rfl
  exact busWriteThen_of_acked h

theorem writeAndFinish_endings (h : e.Happens a r p s) :
    (e = .acked → writeAndFinish a r p s = .next { e.after a r p s with status := 0x00#8 }) ∧
    (e.Fails → writeAndFinish a r p s = .next { e.after a r p s with status := 0x04#8 }) ∧
    (e.Hangs → writeAndFinish a r p s = .fault (.busNeverAnswers (e.after a r p s))) :=
  busWriteThen_endings h

/-- In READY every command but INIT is accepted (R154). -/
theorem accepted_of_ready (hi : i ≠ .init) (hl : s.life = .ready) : accepted i s.life = true := by
  by_cases hshut : i = .shutdown
  · rw [hshut, accepted_shutdown_iff]
    exact .inl hl
  · exact (accepted_setter_iff hi hshut _).mpr hl

/-! ### INIT (R94, R96, R99) -/

/-- An accepted INIT, once the first `j` of its writes are ACKed, is at its write `j`. -/
theorem exec_init_at_write {j : Nat} {w : Byte × List Byte} (hl : s.life = .uninit ∨ s.life = .failed)
    (ht : AllAcked s.dev ((initWrites s.cfg).take j) s t) (hw : (initWrites s.cfg)[j]? = some w) :
    exec .init s =
      busWriteThen s.dev w.1 w.2 (initSequence ((initWrites s.cfg).drop (j + 1))) initFail t := by
  obtain ⟨hj, rfl⟩ := List.getElem?_eq_some_iff.mp hw
  have hdev : t.dev = s.dev := congrArg (fun c : Config => c.devAddr.addr) (allAcked_cfg ht)
  rw [exec_init_of_accepted ((accepted_init_iff _).mpr hl)]
  calc initSequence (initWrites s.cfg) s
      = initSequence ((initWrites s.cfg).take j ++ (initWrites s.cfg).drop j) s := by rw [List.take_append_drop]
    _ = initSequence ((initWrites s.cfg).drop j) t := initSequence_append ht
    _ = _ := by rw [List.drop_eq_getElem_cons hj, initSequence, hdev]

/-- An accepted INIT all of whose writes are ACKed is at its end. -/
theorem exec_init_of_allAcked (hl : s.life = .uninit ∨ s.life = .failed)
    (ht : AllAcked s.dev (initWrites s.cfg) s t) : exec .init s = initDone t := by
  rw [exec_init_of_accepted ((accepted_init_iff _).mpr hl), ← List.append_nil (initWrites s.cfg),
    initSequence_append ht, initSequence]

/-- Settles O14: ACKed writes are passed, and the write after them ends the sequence. -/
theorem initRunsItsSequence : Obligations.InitRunsItsSequence := by
  intro s t j hl dev writes
  have hwrites : writes = initWrites s.cfg := rfl
  rw [hwrites]
  refine ⟨exec_init_of_allAcked hl, fun ht w hw e he => ?_⟩
  rw [exec_init_at_write hl ht hw]
  exact ⟨busWriteThen_of_fails he, busWriteThen_of_hangs he⟩

/-! ### SET_DUTY_RAW and SET_DUTY (R102, R105) -/

section
variable {ch : Nat} {n d : Int}

theorem setDutyRaw_of_invalidChannel (hch : 16 ≤ ch) : setDutyRaw ch n s = .next { s with status := 0x02#8 } :=
  if_pos hch

theorem setDutyRaw_of_negative (hch : ch < 16) (hn : n < 0) :
    setDutyRaw ch n s = .next { s with status := 0x01#8 } :=
  (if_neg hch.not_ge).trans (if_pos hn)

theorem setDutyRaw_of_inRange (hch : ch < 16) (hn : 0 ≤ n) :
    setDutyRaw ch n s = writeAndFinish s.dev (channelReg ch) (channelPayload (clampOn n)) s :=
  (if_neg hch.not_ge).trans (if_neg hn.not_gt)

theorem setDuty_of_outOfDomain (hd : d < 0 ∨ 2 ^ 24 < d) : setDuty ch d s = .next { s with status := 0x01#8 } :=
  if_pos hd

theorem setDuty_of_inDomain (h0 : 0 ≤ d) (h1 : d ≤ 2 ^ 24) :
    setDuty ch d s = setDutyRaw ch (onCyclesOf s.cfg.dutyTie d) s :=
  if_neg (not_or.mpr ⟨h0.not_gt, h1.not_gt⟩)

theorem exec_setDutyRaw_of_ready (hl : s.life = .ready) : exec (.setDutyRaw ch n) s = setDutyRaw ch n s :=
  ifAccepted_of_accepted _ (accepted_of_ready Instr.noConfusion hl)

theorem exec_setDuty_of_ready (hl : s.life = .ready) : exec (.setDuty ch d) s = setDuty ch d s :=
  ifAccepted_of_accepted _ (accepted_of_ready Instr.noConfusion hl)

/-- Settles O18: the two checks in order, else the write of the clamped count. -/
theorem setDutyRawRule : Obligations.SetDutyRawRule := by
  intro s ch n hl dev reg c payload
  have hpayload : payload = channelPayload (clampOn n) := (channelPayload_eq _).symm
  rw [exec_setDutyRaw_of_ready hl, hpayload]
  refine ⟨setDutyRaw_of_invalidChannel, setDutyRaw_of_negative, fun hch hn e he => ?_⟩
  rw [setDutyRaw_of_inRange hch hn]
  exact writeAndFinish_endings he

/-- R102's integer form under ties to even. -/
theorem onCyclesOf_halfEven (d : Int) :
    onCyclesOf .halfEven d =
      if d % 4096 > 2048 ∨ (d % 4096 = 2048 ∧ d / 4096 % 2 = 1) then d / 4096 + 1 else d / 4096 := by
  obtain ⟨q, r, hd, h0, hlt, hcases⟩ := roundDiv_cases .halfEven d (show 0 < 4096 by decide)
  obtain ⟨rfl, rfl⟩ : q = d / 4096 ∧ r = d % 4096 := by omega
  rcases hcases with ⟨hr, hq⟩ | ⟨hr, hq⟩ | ⟨hr, hq⟩
  · rw [onCyclesOf, hq, if_neg (by omega)]
  · rw [onCyclesOf, hq, if_pos (.inl (by omega))]
  · rw [onCyclesOf, hq, tieValue]
    split_ifs <;> omega

/-- R102's integer form under ties up. -/
theorem onCyclesOf_halfUp (d : Int) : onCyclesOf .halfUp d = (d + 2048) / 4096 := by
  obtain ⟨q, r, hd, h0, hlt, hcases⟩ := roundDiv_cases .halfUp d (show 0 < 4096 by decide)
  rcases hcases with ⟨hr, hq⟩ | ⟨hr, hq⟩ | ⟨hr, hq⟩
  · rw [onCyclesOf, hq]
    omega
  · rw [onCyclesOf, hq]
    omega
  · rw [onCyclesOf, hq, tieValue]
    omega

theorem onCyclesOf_bounds (tie : Tie) (h0 : 0 ≤ d) (h1 : d ≤ 2 ^ 24) :
    0 ≤ onCyclesOf tie d ∧ onCyclesOf tie d ≤ 4096 := by
  cases tie with
  | halfEven =>
    rw [onCyclesOf_halfEven]
    split_ifs <;> omega
  | halfUp =>
    rw [onCyclesOf_halfUp]
    omega

/-- Settles O19: the domain check, else the raw setter on the converted count, which is never negative. -/
theorem setDutyRule : Obligations.SetDutyRule := by
  intro s ch d hl dev reg n c payload
  have hn : n = onCyclesOf s.cfg.dutyTie d := by
    simp only [n]
    cases s.cfg.dutyTie with
    | halfEven => exact (onCyclesOf_halfEven d).symm
    | halfUp => exact (onCyclesOf_halfUp d).symm
  have hpayload : payload = channelPayload (clampOn n) := (channelPayload_eq _).symm
  rw [exec_setDuty_of_ready hl, hpayload, hn]
  refine ⟨onCyclesOf_bounds _, setDuty_of_outOfDomain, fun h0 h1 hch => ?_, fun h0 h1 hch e he => ?_⟩
  · rw [setDuty_of_inDomain h0 h1, setDutyRaw_of_invalidChannel hch]
  · obtain ⟨hpos, -⟩ := onCyclesOf_bounds s.cfg.dutyTie h0 h1
    rw [setDuty_of_inDomain h0 h1, setDutyRaw_of_inRange hch hpos]
    exact writeAndFinish_endings he

end

/-! ### SET_PRESCALE_RAW, SET_FREQ and SET_SLEEP (R116, R121, R126) -/

section
variable {v : Int} {hz : Nat}

theorem setPrescaleRaw_of_not_asleep (hs : s.sleeping ≠ .asleep) :
    setPrescaleRaw v s = .next { s with status := 0x03#8 } :=
  if_pos hs

theorem setPrescaleRaw_of_outOfRange (hs : s.sleeping = .asleep) (hv : v < 3 ∨ 255 < v) :
    setPrescaleRaw v s = .next { s with status := 0x01#8 } :=
  (if_neg (not_not.mpr hs)).trans (if_pos hv)

theorem setPrescaleRaw_of_inRange (hs : s.sleeping = .asleep) (h3 : 3 ≤ v) (h255 : v ≤ 255) :
    setPrescaleRaw v s = writeAndFinish s.dev regPrescale [u8 v.toNat] s :=
  (if_neg (not_not.mpr hs)).trans (if_neg (not_or.mpr ⟨h3.not_gt, h255.not_gt⟩))

/-- The write of SET_PRESCALE_RAW: the byte it sends, and what it answers to each ending. -/
theorem setPrescaleRaw_endings (hs : s.sleeping = .asleep) (h3 : 3 ≤ v) (h255 : v ≤ 255) :
    ∃ b : Byte, (b.toNat : Int) = v ∧ ∀ e : BusEnding, e.Happens s.cfg.devAddr.addr 0xFE#8 [b] s →
      (e = .acked →
        setPrescaleRaw v s = .next { e.after s.cfg.devAddr.addr 0xFE#8 [b] s with status := 0x00#8 }) ∧
      (e.Fails → setPrescaleRaw v s = .next { e.after s.cfg.devAddr.addr 0xFE#8 [b] s with status := 0x04#8 }) ∧
      (e.Hangs → setPrescaleRaw v s = .fault (.busNeverAnswers (e.after s.cfg.devAddr.addr 0xFE#8 [b] s))) := by
  refine ⟨u8 v.toNat, u8_prescale_toNat h3 h255, fun e he => ?_⟩
  rw [setPrescaleRaw_of_inRange hs h3 h255]
  exact writeAndFinish_endings he

theorem setFreq_zero (s : State) : setFreq 0 s = .next { s with status := 0x01#8 } := if_pos rfl

/-- SET_FREQ of a positive frequency is the raw setter on R117's floor. -/
theorem setFreq_of_ne_zero (hne : hz ≠ 0) :
    setFreq hz s = setPrescaleRaw ((25000000 + 2048 * (hz : Int)) / (4096 * (hz : Int)) - 1) s := by
  rw [setFreq, if_neg hne, prescaleOf_eq_floor (Nat.pos_of_ne_zero hne)]

theorem exec_setPrescaleRaw_of_ready (hl : s.life = .ready) : exec (.setPrescaleRaw v) s = setPrescaleRaw v s :=
  ifAccepted_of_accepted _ (accepted_of_ready Instr.noConfusion hl)

theorem exec_setFreq_of_ready (hl : s.life = .ready) : exec (.setFreq hz) s = setFreq hz s :=
  ifAccepted_of_accepted _ (accepted_of_ready Instr.noConfusion hl)

/-- Settles O24: the sleep gate and the range in order, else the write. -/
theorem setPrescaleRawRule : Obligations.SetPrescaleRawRule := by
  intro s v hl dev
  rw [exec_setPrescaleRaw_of_ready hl]
  exact ⟨setPrescaleRaw_of_not_asleep, setPrescaleRaw_of_outOfRange, setPrescaleRaw_endings⟩

/-- Settles O25: hz = 0 is checked first, and any other hz runs the raw setter. -/
theorem setFreqRule : Obligations.SetFreqRule := by
  intro s hz hl dev p
  rw [exec_setFreq_of_ready hl]
  refine ⟨?_, fun hne => ?_, fun hne => ?_, fun hne => ?_⟩
  · rintro rfl
    exact setFreq_zero s
  all_goals rw [setFreq_of_ne_zero hne]
  · exact setPrescaleRaw_of_not_asleep
  · exact setPrescaleRaw_of_outOfRange
  · exact setPrescaleRaw_endings

/-- Settles O28: an accepted SET_SLEEP is its write, and only its OK sets the mirror. -/
theorem setSleepRule : Obligations.SetSleepRule := by
  intro s sl hl dev b e he
  have hexec : exec (.setSleep sl) s = setSleep sl s :=
    ifAccepted_of_accepted _ (accepted_of_ready Instr.noConfusion hl)
  rw [hexec]
  exact busWriteThen_endings he

end

/-! ### PRESCALE is written asleep only (R123) -/

theorem channelReg_ne_regPrescale {ch : Nat} (hch : ch < 16) : channelReg ch ≠ regPrescale := by
  intro h
  have hreg : 0x06 + 4 * ch = 0xFE := (channelReg_toNat hch).symm.trans (congrArg BitVec.toNat h)
  omega

theorem WriteOf.reg_ne_regPrescale (h : WriteOf s a r p i) (hs : s.sleeping ≠ .asleep) : r ≠ regPrescale := by
  cases i with
  | init => exact h.elim
  | setDuty ch d =>
    obtain ⟨hch, -, rfl, -⟩ := h
    exact channelReg_ne_regPrescale hch
  | setDutyRaw ch n =>
    obtain ⟨hch, -, rfl, -⟩ := h
    exact channelReg_ne_regPrescale hch
  | setFreq hz =>
    obtain ⟨hasleep, -⟩ := h
    exact absurd hasleep hs
  | setPrescaleRaw v =>
    obtain ⟨hasleep, -⟩ := h
    exact absurd hasleep hs
  | setSleep sl =>
    obtain ⟨-, rfl, -⟩ := h
    decide
  | resetAll =>
    obtain ⟨-, rfl, -⟩ := h
    decide
  | shutdown =>
    obtain ⟨-, rfl, -⟩ := h
    decide

theorem WritesOf.reg_ne_regPrescale {ws : List (Byte × List Byte)} {w : Byte × List Byte} (h : WritesOf s a ws i)
    (hs : s.sleeping ≠ .asleep) (hw : w ∈ ws) : w.1 ≠ regPrescale := by
  rcases h with ⟨-, -, rfl⟩ | ⟨r, p, hwrite, rfl⟩
  · rcases mem_initWrites_iff.mp hw with rfl | rfl | ⟨n, hn, rfl⟩
    · exact (by decide : regMode1 ≠ regPrescale)
    · exact (by decide : regMode2 ≠ regPrescale)
    · exact channelReg_ne_regPrescale hn
  · obtain rfl := List.mem_singleton.mp hw
    exact hwrite.reg_ne_regPrescale hs

/-- The record is of one of the writes of the command. -/
def RecordsWriteOf (s : State) (i : Instr) (x : Txn) : Prop :=
  ∃ a ws w, WritesOf s a ws i ∧ w ∈ ws ∧ x.addr = a ∧ x.reg = w.1 ∧ x.payload = w.2

theorem WritesOf.recordsWriteOf {ws : List (Byte × List Byte)} {w : Byte × List Byte} (h : WritesOf s a ws i)
    (hw : w ∈ ws) (o : TxnOutcome) : RecordsWriteOf s i ⟨a, w.1, w.2, o⟩ :=
  ⟨a, ws, w, h, hw, rfl, rfl, rfl⟩

theorem WritesOf.forall_okRecord {ws vs : List (Byte × List Byte)} (h : WritesOf s a ws i) (hsub : vs ⊆ ws) :
    ∀ x ∈ vs.map (okRecord a), RecordsWriteOf s i x :=
  List.forall_mem_map.mpr fun _ hw => h.recordsWriteOf (hsub hw) .ok

/-- Whether a command finishes or hangs, the records it adds are of its writes. -/
theorem exec_records (h : exec i s = .next t ∨ exec i s = .fault (.busNeverAnswers t)) :
    ∃ new : List Txn, t.hist = s.hist ++ new ∧ ∀ x ∈ new, RecordsWriteOf s i x := by
  rcases h with h | h
  · rcases exec_hist_cases h with ⟨-, hhist⟩ | ⟨-, a, ws, hws, hhist⟩ | ⟨-, a, ws, j, w, o, hws, hj, -, hhist⟩
    · exact ⟨[], by simp [hhist], by simp⟩
    · exact ⟨_, hhist, hws.forall_okRecord (List.Subset.refl ws)⟩
    · rw [List.append_assoc] at hhist
      refine ⟨_, hhist, List.forall_mem_append.mpr ⟨hws.forall_okRecord (List.take_subset j ws), ?_⟩⟩
      exact List.forall_mem_singleton.mpr (hws.recordsWriteOf (List.mem_of_getElem? hj) o)
  · rcases exec_next_or_hangs i s with ⟨t', ht⟩ | ⟨a, ws, e, u, hws, hu, hh, hf⟩
    · rw [ht] at h
      cases h
    · obtain rfl : u = t := by simpa [hf] using h
      obtain ⟨j, w, -, hhist⟩ := hu.hist
      obtain ⟨k, rfl⟩ := hh.eq_hangsAt
      exact ⟨_, by simpa [BusEnding.outcome] using hhist, hws.forall_okRecord (List.take_subset j ws)⟩

/-- Settles O32: an illegal word records nothing, and no write of a command is to PRESCALE while the mirror is not TRUE. -/
theorem noPrescaleWriteWhileAwake : Obligations.NoPrescaleWriteWhileAwake := by
  intro s t w hs h
  cases hd : decode w with
  | ok i =>
    rw [execute_of_decode hd] at h
    obtain ⟨new, hhist, hnew⟩ := exec_records h
    refine ⟨new, hhist, fun x hx => ?_⟩
    obtain ⟨a, ws, w, hws, hw, -, hreg, -⟩ := hnew x hx
    rw [hreg]
    exact hws.reg_ne_regPrescale hs hw
  | error e =>
    obtain rfl : { s with status := 0x05#8 } = t := by simpa [execute_of_illegal hd] using h
    exact ⟨[], by simp, by simp⟩

/-! ### RESET_ALL and SHUTDOWN (R133, R137) -/

/-- Settles O33: an accepted RESET_ALL is its one write. -/
theorem resetAllRule : Obligations.ResetAllRule := by
  intro s hl e he
  have hexec : exec .resetAll s = resetAll s := ifAccepted_of_accepted _ (accepted_of_ready Instr.noConfusion hl)
  rw [hexec]
  exact writeAndFinish_endings he

/-- Settles O35: an accepted SHUTDOWN is its one write, which ends the lifecycle on OK and on FAIL. -/
theorem shutdownRule : Obligations.ShutdownRule := by
  intro s hl dev p e he
  have hexec : exec .shutdown s = shutdown s := ifAccepted_of_accepted _ ((accepted_shutdown_iff _).mpr hl)
  rw [hexec]
  exact busWriteThen_endings he

end Sys2Proof.Machine

/-! INIT's two results and its zeroing of the channels (spec 41_init R95 to R99). -/

namespace Sys2Proof.Machine

variable {s t : State} {n : Nat}

/-! ### The two results (R95, R96, R99) -/

/-- Settles O15: the sequence ends after all eighteen writes, or at the FAIL of write `j`, after `j` OK ones. -/
theorem initHasTwoResults : Obligations.InitHasTwoResults := by
  intro s t hl h
  have hacc : accepted .init s.life = true := (accepted_init_iff _).mpr hl
  rcases exec_init_next_cases h with ⟨hrej, -⟩ | ⟨-, u, hu, rfl⟩ | ⟨-, j, w, u, e, hj, hu, -, hf, rfl⟩
  · simp [hacc] at hrej
  · have hhist : u.hist = s.hist ++ (initWrites s.cfg).map (okRecord s.dev) := allAcked_hist hu
    refine ⟨(initWrites s.cfg).map (okRecord s.dev), hhist, .inl ⟨rfl, rfl, rfl, rfl, ?_, ?_⟩⟩
    · rw [List.length_map, initWrites_length]
    · exact forall_okRecord_outcome s.dev _
  · obtain ⟨o, he, ho⟩ := hf.outcome
    obtain ⟨hj18, -⟩ := List.getElem?_eq_some_iff.mp hj
    have hbus : OnlyBus s u := allAcked_onlyBus hu
    refine ⟨((initWrites s.cfg).take j).map (okRecord s.dev) ++ [⟨s.dev, w.1, w.2, o⟩], ?_,
      .inr ⟨rfl, rfl, hbus.sleeping, hbus.pin, _, _, rfl, ?_,
        forall_okRecord_outcome s.dev _, ho⟩⟩
    · simp [allAcked_hist hu, he]
    · rw [initWrites_length] at hj18
      rw [List.length_map, List.length_take]
      omega

/-! ### The zeroing of the channels (R97) -/

theorem initWrites_getElem_channel (c : Config) (hn : n < 16) :
    (initWrites c)[2 + n]? = some (channelReg n, channelPayload 0) := by
  rw [Nat.add_comm]
  simp [initWrites, channelCount, hn]

/-- INIT's writes around the zeroing of channel `n`, which stands at position `2 + n` (R94). -/
theorem initWrites_split_channel (c : Config) (hn : n < 16) :
    initWrites c =
      (initWrites c).take (2 + n) ++ [(channelReg n, channelPayload 0)] ++ (initWrites c).drop (2 + n + 1) := by
  obtain ⟨hlt, hget⟩ := List.getElem?_eq_some_iff.mp (initWrites_getElem_channel c hn)
  rw [← hget, List.take_append_getElem, List.take_append_drop]

theorem onCyclesOf_zero (tie : Tie) : onCyclesOf tie 0 = 0 := by cases tie <;> decide

theorem exec_setDuty_zero_hist_of_ok (h : exec (.setDuty n 0) s = .next t) (hst : t.status = 0x00#8) :
    t.hist = s.hist ++ [channelRecord s.dev n 0 .ok] := by
  obtain ⟨a, r, p, ⟨-, rfl, rfl, rfl⟩, hhist⟩ := exec_setter_hist_of_ok Instr.noConfusion h hst
  rw [hhist, onCyclesOf_zero]
  rfl

/-- Settles O16: the common record is that of the channel's write of count 0. -/
theorem initZeroesLikeSetDuty : Obligations.InitZeroesLikeSetDuty := by
  intro s t s' t' n hn hcfg _ _ hinit hst hset hst'
  have hdev : s'.dev = s.dev := congrArg (fun c : Config => c.devAddr.addr) hcfg
  refine ⟨((initWrites s.cfg).take (2 + n)).map (okRecord s.dev), channelRecord s.dev n 0 .ok,
    ((initWrites s.cfg).drop (2 + n + 1)).map (okRecord s.dev), ?_, ?_, ?_, rfl, rfl⟩
  · calc t.hist
        = s.hist ++ (initWrites s.cfg).map (okRecord s.dev) := exec_init_hist_of_ok hinit hst
      _ = _ := by
        conv_lhs => rw [initWrites_split_channel s.cfg hn]
        simp [okRecord, channelRecord]
  · rw [List.length_map, List.length_take, initWrites_length]
    omega
  · rw [exec_setDuty_zero_hist_of_ok hset hst', hdev]

end Sys2Proof.Machine

/-! The duty commands from the word on, and their frame (spec 42_duty R107 to R109). -/

namespace Sys2Proof.Machine

variable {i : Instr} {s t : State} {a : Addr7} {r : Byte} {p : List Byte} {w : CmdWord} {ch : Nat} {v : Int}

/-! ### From the word to its command (R66, R67, R154) -/

/-- RSV is checked before everything else (R66). -/
theorem execute_of_rsv_ne_zero (hr : w.toNat / 2 ^ 32 % 2 ^ 16 ≠ 0) (s : State) :
    execute w s = .next { s with status := 0x05#8 } := by
  have hrsv : fieldRsv w ≠ 0 := fun h0 => hr (by rw [← fieldRsv_toNat, h0]; rfl)
  exact execute_of_illegal (if_neg hrsv) s

theorem execute_of_fieldsSpell (hr : w.toNat / 2 ^ 32 % 2 ^ 16 = 0) (hf : FieldsSpell w i) (s : State) :
    execute w s = exec i s := by
  have hrsv : fieldRsv w = 0 := BitVec.eq_of_toNat_eq ((fieldRsv_toNat w).trans hr)
  exact execute_of_decode (decode_eq_ok_iff.mpr ⟨hrsv, hf⟩) s

theorem exec_setter_of_not_ready (hinit : i ≠ .init) (hshut : i ≠ .shutdown) (hl : s.life ≠ .ready) :
    exec i s = .next { s with status := 0x06#8 } :=
  exec_of_not_accepted (Bool.eq_false_iff.mpr fun hacc => hl ((accepted_setter_iff hinit hshut _).mp hacc))

/-! ### The errors in order (R108, R109) -/

/-- A setter's write that finishes adds its record, and the record's outcome decides the status (R51). -/
theorem writeAndFinish_record (h : writeAndFinish a r p s = .next t) :
    ∃ x : Txn, t.hist = s.hist ++ [x] ∧ t.status = if x.outcome = .ok then 0x00#8 else 0x04#8 := by
  rcases busWriteThen_cases a r p (finish .ok) (raise .busError) s with ⟨-, e⟩ | ⟨en, hf, -, e⟩ | ⟨en, -, -, e⟩
  · obtain rfl := Host.Outcome.next.inj (e.symm.trans h)
    exact ⟨⟨a, r, p, .ok⟩, rfl, rfl⟩
  · obtain rfl := Host.Outcome.next.inj (e.symm.trans h)
    obtain ⟨o, ho, hne⟩ := hf.outcome
    exact ⟨⟨a, r, p, o⟩, by simp [ho], (if_neg hne).symm⟩
  · cases e.symm.trans h

theorem setDuty_of_inRange (h0 : 0 ≤ v) (h1 : v ≤ 2 ^ 24) (hch : ch < 16) :
    setDuty ch v s =
      writeAndFinish s.dev (channelReg ch) (channelPayload (clampOn (onCyclesOf s.cfg.dutyTie v))) s := by
  obtain ⟨hpos, -⟩ := onCyclesOf_bounds s.cfg.dutyTie h0 h1
  rw [setDuty_of_inDomain h0 h1, setDutyRaw_of_inRange hch hpos]

/-- Settles O20: the word's own checks, then the lifecycle's, then those of the command's rule, then its write. -/
theorem dutyErrorsInOrder : Obligations.DutyErrorsInOrder := by
  intro s t w h ch rsv opd v
  have answer {u : State} (e : execute w s = .next u) : t = u := Host.Outcome.next.inj (h.symm.trans e)
  have record {a : Addr7} {r : Byte} {p : List Byte} (e : execute w s = writeAndFinish a r p s) :
      ∃ x : Txn, t.hist = s.hist ++ [x] ∧ t.status = if x.outcome = .ok then 0x00#8 else 0x04#8 :=
    writeAndFinish_record (e.symm.trans h)
  refine ⟨fun hopc => ?_, fun hopc => ?_⟩
  · have run (hr : rsv = 0) : execute w s = exec (.setDuty ch v) s :=
      execute_of_fieldsSpell (i := .setDuty ch v) hr
        ⟨(fieldOpc_toNat w).trans hopc, fieldCh_toNat w, fieldOpd_toInt w⟩ s
    have ready (hr : rsv = 0) (hl : s.life = .ready) : execute w s = setDuty ch v s :=
      (run hr).trans (exec_setDuty_of_ready hl)
    refine ⟨fun hr => answer (execute_of_rsv_ne_zero hr s), fun hr hl => answer ?_, fun hr hl hv => answer ?_,
      fun hr hl h0 h1 hch => answer ?_, fun hr hl h0 h1 hch => ?_⟩
    · rw [run hr, exec_setter_of_not_ready Instr.noConfusion Instr.noConfusion hl]
    · rw [ready hr hl, setDuty_of_outOfDomain hv]
    · rw [ready hr hl, setDuty_of_inDomain h0 h1, setDutyRaw_of_invalidChannel hch]
    · exact record ((ready hr hl).trans (setDuty_of_inRange h0 h1 hch))
  · have run (hr : rsv = 0) : execute w s = exec (.setDutyRaw ch v) s :=
      execute_of_fieldsSpell (i := .setDutyRaw ch v) hr
        ⟨(fieldOpc_toNat w).trans hopc, fieldCh_toNat w, fieldOpd_toInt w⟩ s
    have ready (hr : rsv = 0) (hl : s.life = .ready) : execute w s = setDutyRaw ch v s :=
      (run hr).trans (exec_setDutyRaw_of_ready hl)
    refine ⟨fun hr => answer (execute_of_rsv_ne_zero hr s), fun hr hl => answer ?_, fun hr hl hch => answer ?_,
      fun hr hl hch hn => answer ?_, fun hr hl hch hn => ?_⟩
    · rw [run hr, exec_setter_of_not_ready Instr.noConfusion Instr.noConfusion hl]
    · rw [ready hr hl, setDutyRaw_of_invalidChannel hch]
    · rw [ready hr hl, setDutyRaw_of_negative hch hn]
    · exact record ((ready hr hl).trans (setDutyRaw_of_inRange hch hn))

/-! ### What a command other than INIT leaves alone (R24, R25, R27, R29) -/

theorem exec_setter_life (hinit : i ≠ .init) (hshut : i ≠ .shutdown) (h : exec i s = .next t) : t.life = s.life := by
  by_contra hne
  rcases lifeChangesOnlyByInitAndShutdown i s t h hne with ⟨hi, -⟩ | ⟨hi, -⟩ | ⟨hi, -⟩
  · exact hinit hi
  · exact hinit hi
  · exact hshut hi

theorem exec_setter_pin (hinit : i ≠ .init) (h : exec i s = .next t) : t.pin = s.pin := by
  by_contra hne
  obtain ⟨-, hpin⟩ := mirrorAndPinWriters i s t h
  obtain ⟨hi, -⟩ := hpin hne
  exact hinit hi

/-- Without a command that writes it, the mirror stays. -/
theorem exec_sleeping (hinit : i ≠ .init) (hshut : i ≠ .shutdown) (hsleep : ∀ sl, i ≠ .setSleep sl)
    (h : exec i s = .next t) : t.sleeping = s.sleeping := by
  by_contra hne
  obtain ⟨hmirror, -⟩ := mirrorAndPinWriters i s t h
  rcases hmirror hne with ⟨-, ⟨-, hi | hi | hi⟩ | ⟨-, hi⟩⟩
  · exact hinit hi
  · exact hsleep true hi
  · exact hshut hi
  · exact hsleep false hi

theorem exec_setter_hist (hinit : i ≠ .init) (h : exec i s = .next t) :
    t.hist = s.hist ∨ ∃ x : Txn, t.hist = s.hist ++ [x] := by
  rcases exec_setter_hist_cases hinit h with ⟨-, hhist⟩ | ⟨a, r, p, o, -, hhist, -⟩
  · exact .inl hhist
  · exact .inr ⟨_, hhist⟩

/-! ### Independence of the mirror (R107) -/

/-- What `run` answers does not depend on the mirror, which it passes on as it is. -/
def IgnoresSleeping (run : State → StepResult) : Prop :=
  ∀ s t m, run s = .next t → run { s with sleeping := m } = .next { t with sleeping := m }

theorem raise_ignoresSleeping (c : StatusCode) : IgnoresSleeping (raise c) := by
  intro s t m h
  obtain rfl := Host.Outcome.next.inj h
  rfl

/-- A choice by a condition on the operands. -/
theorem ite_ignoresSleeping {c : Prop} [Decidable c] {yes no : State → StepResult} (hyes : IgnoresSleeping yes)
    (hno : IgnoresSleeping no) : IgnoresSleeping (fun s => if c then yes s else no s) := by
  split_ifs
  · exact hyes
  · exact hno

/-- Acceptance looks at `life` alone. -/
theorem ifAccepted_ignoresSleeping {run : State → StepResult} (hrun : IgnoresSleeping run) :
    IgnoresSleeping (ifAccepted i run) := by
  intro s t m h
  by_cases hacc : accepted i s.life = true
  · rw [ifAccepted_of_accepted _ hacc] at h
    rw [ifAccepted_of_accepted (s := { s with sleeping := m }) _ hacc]
    exact hrun s t m h
  · have hrej : accepted i s.life = false := Bool.eq_false_iff.mpr hacc
    rw [ifAccepted_of_not_accepted _ hrej] at h
    obtain rfl := Host.Outcome.next.inj h
    exact ifAccepted_of_not_accepted (s := { s with sleeping := m }) _ hrej

/-- The bus's answers depend on the history and the era. -/
theorem writeAndFinish_ignoresSleeping (a : Addr7) (r : Byte) (p : List Byte) :
    IgnoresSleeping (writeAndFinish a r p) := by
  intro s t m h
  obtain ⟨e, he⟩ := exists_happens a r p s
  have he' : e.Happens a r p { s with sleeping := m } := by cases e <;> exact he
  cases e with
  | acked =>
    obtain rfl := Host.Outcome.next.inj ((writeAndFinish_of_acked he).symm.trans h)
    exact writeAndFinish_of_acked he'
  | nackAt k =>
    obtain rfl := Host.Outcome.next.inj ((writeAndFinish_of_fails he trivial).symm.trans h)
    exact writeAndFinish_of_fails he' trivial
  | errAt k stop =>
    obtain rfl := Host.Outcome.next.inj ((writeAndFinish_of_fails he trivial).symm.trans h)
    exact writeAndFinish_of_fails he' trivial
  | hangsAt k => cases (writeAndFinish_of_hangs he trivial).symm.trans h

theorem setDutyRaw_ignoresSleeping (ch : Nat) (n : Int) : IgnoresSleeping (setDutyRaw ch n) :=
  ite_ignoresSleeping (raise_ignoresSleeping _) <|
    ite_ignoresSleeping (raise_ignoresSleeping _) fun s => writeAndFinish_ignoresSleeping s.dev _ _ s

theorem setDuty_ignoresSleeping (ch : Nat) (d : Int) : IgnoresSleeping (setDuty ch d) :=
  ite_ignoresSleeping (raise_ignoresSleeping _) fun s =>
    setDutyRaw_ignoresSleeping ch (onCyclesOf s.cfg.dutyTie d) s

/-! ### The frame (R37, R107) -/

/-- The command sets the duty of channel `ch`, by a fraction or by a count. -/
def IsDuty (ch : Nat) (v : Int) (i : Instr) : Prop := i = .setDuty ch v ∨ i = .setDutyRaw ch v

theorem IsDuty.ne_init (h : IsDuty ch v i) : i ≠ .init := by
  rcases h with rfl | rfl <;> exact Instr.noConfusion

theorem IsDuty.ne_shutdown (h : IsDuty ch v i) : i ≠ .shutdown := by
  rcases h with rfl | rfl <;> exact Instr.noConfusion

theorem IsDuty.ne_setSleep (h : IsDuty ch v i) (sl : Bool) : i ≠ .setSleep sl := by
  rcases h with rfl | rfl <;> exact Instr.noConfusion

theorem IsDuty.ignoresSleeping (h : IsDuty ch v i) : IgnoresSleeping (exec i) := by
  rcases h with rfl | rfl
  · exact ifAccepted_ignoresSleeping (setDuty_ignoresSleeping ch v)
  · exact ifAccepted_ignoresSleeping (setDutyRaw_ignoresSleeping ch v)

/-- Both duty commands issue a channel write, of a count of their own (R102, R105). -/
theorem IsDuty.writeOf (h : IsDuty ch v i) (hw : WriteOf s a r p i) :
    ch < 16 ∧ ∃ c, ∀ o, (⟨a, r, p, o⟩ : Txn) = channelRecord s.dev ch c o := by
  rcases h with rfl | rfl
  all_goals
    obtain ⟨hch, rfl, rfl, rfl⟩ := hw
    exact ⟨hch, _, fun _ => rfl⟩

theorem IsDuty.image_outside (hi : IsDuty ch v i) (h : exec i s = .next t) {reg : Byte} (dev : Addr7)
    (hreg : ¬ (0x06 + 4 * ch ≤ reg.toNat ∧ reg.toNat ≤ 0x06 + 4 * ch + 3)) :
    image dev t.hist reg = image dev s.hist reg := by
  rcases exec_setter_hist_cases hi.ne_init h with ⟨-, hhist⟩ | ⟨a, r, p, o, hw, hhist, -⟩
  · rw [hhist]
  · obtain ⟨hch, c, hrecord⟩ := hi.writeOf hw
    rw [hhist, hrecord o]
    exact image_append_uncovered _ (List.forall_mem_singleton.mpr (byteAt_channelRecord_outside s.dev c o hch hreg))

/-- Settles O21: the frame shared by the setters, and the one record lies in the channel's four registers. -/
theorem dutyCommandsFrame : Obligations.DutyCommandsFrame := by
  intro i ch v hduty s t h
  have hi : IsDuty ch v i := hduty
  obtain ⟨hcfg, hinbox, hera⟩ := exec_sameSetting h
  exact ⟨exec_setter_life hi.ne_init hi.ne_shutdown h, exec_sleeping hi.ne_init hi.ne_shutdown hi.ne_setSleep h,
    exec_setter_pin hi.ne_init h, hcfg, hinbox, hera, exec_setter_hist hi.ne_init h,
    fun m => hi.ignoresSleeping s t m h, fun _ => hi.image_outside h _⟩

end Sys2Proof.Machine

/-! The timing commands: the frequencies SET_FREQ accepts, the errors of the three commands from the word on, and the
frames of the prescale and mode commands (spec 43_timing_mode R116 to R129). -/

namespace Sys2Proof.Machine

variable {i : Instr} {s t : State} {a : Addr7} {r : Byte} {p : List Byte} {w : CmdWord} {v : Int} {hz : Nat} {sl : Bool}

/-! ### The prescale of a frequency (R117, R118) -/

/-- 25000000 / (4096 hz) is no half-integer: 2^12 does not divide 2 · 25000000. -/
theorem prescale_quotient_no_tie (hz : Nat) (k : Int) : 2 * 25000000 ≠ 4096 * (hz : Int) * (2 * k + 1) := by
  intro hk
  rw [mul_assoc] at hk
  omega

/-- Settles O26: without a tie either rule rounds to the same floor. -/
theorem prescaleNeverTies : Obligations.PrescaleNeverTies := by
  intro hz hpos
  refine ⟨prescale_quotient_no_tie hz, fun tie => ?_, prescaleOf_eq_floor hpos⟩
  have hden : 0 < 4096 * hz := Nat.mul_pos (by decide) hpos
  have htie : ∀ k : Int, 2 * 25000000 ≠ ((4096 * hz : Nat) : Int) * (2 * k + 1) :=
    mod_cast prescale_quotient_no_tie hz
  have hrule : roundDiv tie 25000000 (4096 * hz) = roundNe oscHz (period * hz) :=
    (roundDiv_eq_floor tie _ hden htie).trans (roundDiv_eq_floor .halfEven _ hden htie).symm
  rw [hrule, prescaleOf]

/-- A lower bound of the prescale is a linear condition on the frequency. -/
theorem le_prescaleOf_iff (hpos : 0 < hz) (n : Int) :
    n ≤ prescaleOf hz ↔ (n + 1) * (4096 * (hz : Int)) ≤ 25000000 + 2048 * (hz : Int) := by
  rw [prescaleOf_eq_floor hpos, le_sub_iff_add_le, Int.le_ediv_iff_mul_le (by omega)]

theorem prescaleOf_le_iff (hpos : 0 < hz) (n : Int) :
    prescaleOf hz ≤ n ↔ 25000000 + 2048 * (hz : Int) < (n + 2) * (4096 * (hz : Int)) := by
  rw [← Int.lt_add_one_iff, ← not_le, le_prescaleOf_iff hpos, not_le, add_assoc]
  rfl

theorem prescaleOf_inRange_iff (hpos : 0 < hz) :
    3 ≤ prescaleOf hz ∧ prescaleOf hz ≤ 255 ↔ 24 ≤ hz ∧ hz ≤ 1743 := by
  rw [le_prescaleOf_iff hpos, prescaleOf_le_iff hpos]
  omega

theorem prescaleOf_bounds_of_accepted (h24 : 24 ≤ hz) (h1743 : hz ≤ 1743) :
    3 ≤ prescaleOf hz ∧ prescaleOf hz ≤ 253 := by
  rw [le_prescaleOf_iff (by omega), prescaleOf_le_iff (by omega)]
  omega

theorem le_prescaleOf_of_slow (hpos : 1 ≤ hz) (h23 : hz ≤ 23) : 264 ≤ prescaleOf hz := by
  rw [le_prescaleOf_iff hpos]
  omega

theorem prescaleOf_le_of_fast (h : 1744 ≤ hz) : prescaleOf hz ≤ 2 := by
  rw [prescaleOf_le_iff (by omega)]
  omega

theorem prescaleOf_eq_neg_one (h : 12208 ≤ hz) : prescaleOf hz = -1 := by
  have hpos : 0 < hz := by omega
  apply le_antisymm
  · rw [prescaleOf_le_iff hpos]
    omega
  · rw [le_prescaleOf_iff hpos]
    omega

/-- Slow, accepted and fast frequencies all miss 254 and 255. -/
theorem prescaleOf_ne_254_255 (hpos : 1 ≤ hz) : prescaleOf hz ≠ 254 ∧ prescaleOf hz ≠ 255 := by
  rcases le_or_gt hz 23 with h23 | h23
  · have := le_prescaleOf_of_slow hpos h23
    omega
  rcases le_or_gt hz 1743 with h1743 | h1743
  · have := prescaleOf_bounds_of_accepted h23 h1743
    omega
  · have := prescaleOf_le_of_fast h1743
    omega

/-! ### The frequencies SET_FREQ accepts (R116, R118) -/

theorem setFreq_of_outOfRange (hs : s.sleeping = .asleep) (hout : hz < 24 ∨ 1743 < hz) :
    setFreq hz s = .next { s with status := 0x01#8 } := by
  rcases Nat.eq_zero_or_pos hz with rfl | hpos
  · exact setFreq_zero s
  · have hprescale : prescaleOf hz < 3 ∨ 255 < prescaleOf hz := by
      have := prescaleOf_inRange_iff hpos
      omega
    rw [setFreq, if_neg hpos.ne', setPrescaleRaw_of_outOfRange hs hprescale]

/-- An OK SET_FREQ wrote a prescale in range. -/
theorem exec_setFreq_of_ok (h : exec (.setFreq hz) s = .next t) (hst : t.status = 0x00#8) : 24 ≤ hz ∧ hz ≤ 1743 := by
  obtain ⟨a, r, p, ⟨-, -, -, h3, h255, -⟩, -⟩ := exec_setter_hist_of_ok Instr.noConfusion h hst
  have hne : hz ≠ 0 := by
    rintro rfl
    simp [prescaleOf_zero] at h3
  exact (prescaleOf_inRange_iff (Nat.pos_of_ne_zero hne)).mp ⟨h3, h255⟩

/-- Settles O27: the bounds of the prescale, and R121's range seen from the frequency. -/
theorem acceptedFrequencies : Obligations.AcceptedFrequencies := by
  refine ⟨fun _ => prescaleOf_bounds_of_accepted, fun _ => le_prescaleOf_of_slow, fun _ => prescaleOf_le_of_fast,
    fun _ => prescaleOf_eq_neg_one, fun _ => prescaleOf_ne_254_255, fun s t hz hl h => ?_⟩
  have answer {u : State} (e : setFreq hz s = .next u) : t = u :=
    Host.Outcome.next.inj (h.symm.trans ((exec_setFreq_of_ready hl).trans e))
  refine ⟨fun hs hout => answer (setFreq_of_outOfRange hs hout), ?_, exec_setFreq_of_ok h⟩
  rintro rfl
  exact answer (setFreq_zero s)

/-! ### The errors in order (R122, R129) -/

/-- CH is checked with RSV where the command takes no channel (R66). -/
theorem execute_of_chRsv_ne_zero (h2 : w.toNat / 2 ^ 56 ≠ 2) (h3 : w.toNat / 2 ^ 56 ≠ 3)
    (hcr : w.toNat / 2 ^ 32 % 2 ^ 24 ≠ 0) (s : State) : execute w s = .next { s with status := 0x05#8 } := by
  obtain ⟨hillegal, -⟩ := illegalWordsAreRefusedWhole w
  obtain ⟨e, he⟩ := hillegal.mpr (by omega)
  exact execute_of_illegal he s

/-- SET_SLEEP reads OPD bit 0 and allows no other bit (R66). -/
theorem execute_of_sleepBits (hopc : w.toNat / 2 ^ 56 = 6) (hopd : 2 ≤ w.toNat % 2 ^ 32) (s : State) :
    execute w s = .next { s with status := 0x05#8 } := by
  obtain ⟨hillegal, -⟩ := illegalWordsAreRefusedWhole w
  obtain ⟨e, he⟩ := hillegal.mpr (by omega)
  exact execute_of_illegal he s

theorem fieldCh_of_chRsv (hcr : w.toNat / 2 ^ 32 % 2 ^ 24 = 0) : fieldCh w = 0 :=
  BitVec.eq_of_toNat_eq ((fieldCh_toNat w).trans (show _ = 0 by omega))

theorem fieldOpd_of_lt_two (hopd : w.toNat % 2 ^ 32 < 2) :
    fieldOpd w = BitVec.ofNat 32 ((fieldOpd w).getLsbD 0).toNat := by
  apply eq_ofNat_bit0
  apply BitVec.eq_of_toNat_eq
  rw [BitVec.toNat_ushiftRight, Nat.shiftRight_eq_div_pow, fieldOpd_toNat]
  exact Nat.div_eq_of_lt hopd

theorem exec_setSleep_of_ready (hl : s.life = .ready) : exec (.setSleep sl) s = setSleep sl s :=
  ifAccepted_of_accepted _ (accepted_of_ready Instr.noConfusion hl)

/-- SET_SLEEP's write adds its record; only an OK one moves the mirror (R126, R128). -/
theorem setSleep_record (h : setSleep sl s = .next t) :
    ∃ x : Txn, t.hist = s.hist ++ [x] ∧ (t.status = if x.outcome = .ok then 0x00#8 else 0x04#8) ∧
      (x.outcome ≠ .ok → t.sleeping = s.sleeping) := by
  rcases busWriteThen_cases s.dev regMode1 [sleepByte sl s.cfg]
      (fun t => finish .ok (t.setSleeping (sleepingOf sl))) (raise .busError) s with
    ⟨-, e⟩ | ⟨en, hf, -, e⟩ | ⟨en, -, -, e⟩
  · obtain rfl := Host.Outcome.next.inj (e.symm.trans h)
    exact ⟨⟨_, _, _, .ok⟩, rfl, rfl, fun hne => absurd rfl hne⟩
  · obtain rfl := Host.Outcome.next.inj (e.symm.trans h)
    obtain ⟨o, ho, hne⟩ := hf.outcome
    exact ⟨⟨s.dev, regMode1, [sleepByte sl s.cfg], o⟩, by simp [ho], (if_neg hne).symm, fun _ => rfl⟩
  · cases e.symm.trans h

/-- The command sets the prescale, by a frequency or by a value. -/
def SetsPrescale (i : Instr) : Prop := (∃ hz : Nat, i = .setFreq hz) ∨ ∃ v : Int, i = .setPrescaleRaw v

theorem SetsPrescale.ne_init (h : SetsPrescale i) : i ≠ .init := by
  rcases h with ⟨hz, rfl⟩ | ⟨v, rfl⟩ <;> exact Instr.noConfusion

theorem SetsPrescale.ne_shutdown (h : SetsPrescale i) : i ≠ .shutdown := by
  rcases h with ⟨hz, rfl⟩ | ⟨v, rfl⟩ <;> exact Instr.noConfusion

theorem SetsPrescale.ne_setSleep (h : SetsPrescale i) (sl : Bool) : i ≠ .setSleep sl := by
  rcases h with ⟨hz, rfl⟩ | ⟨v, rfl⟩ <;> exact Instr.noConfusion

/-- A prescale command that reaches its write adds the write's record and moves neither mirror, lifecycle nor pin. -/
theorem SetsPrescale.record (hi : SetsPrescale i) (h : exec i s = .next t) (hraw : exec i s = setPrescaleRaw v s)
    (hs : s.sleeping = .asleep) (h3 : 3 ≤ v) (h255 : v ≤ 255) :
    ∃ x : Txn, t.hist = s.hist ++ [x] ∧ (t.status = if x.outcome = .ok then 0x00#8 else 0x04#8) ∧
      t.sleeping = s.sleeping ∧ t.life = s.life ∧ t.pin = s.pin := by
  rw [setPrescaleRaw_of_inRange hs h3 h255] at hraw
  obtain ⟨x, hhist, hst⟩ := writeAndFinish_record (hraw.symm.trans h)
  exact ⟨x, hhist, hst, exec_sleeping hi.ne_init hi.ne_shutdown hi.ne_setSleep h,
    exec_setter_life hi.ne_init hi.ne_shutdown h, exec_setter_pin hi.ne_init h⟩

/-- Settles O29: the word's own checks, then the lifecycle's, then those of the command's rule, then its write. -/
theorem timingErrorsInOrder : Obligations.TimingErrorsInOrder := by
  intro s t w h chRsv opd v p
  have answer {u : State} (e : execute w s = .next u) : t = u := Host.Outcome.next.inj (h.symm.trans e)
  have spelled {i : Instr} (hcr : chRsv = 0) (hf : FieldsSpell w i) : execute w s = exec i s :=
    execute_of_fieldsSpell (show w.toNat / 2 ^ 32 % 2 ^ 16 = 0 by omega) hf s
  refine ⟨fun hopc => ?_, fun hopc => ?_, fun hopc => ?_⟩
  · have run (hcr : chRsv = 0) : execute w s = exec (.setPrescaleRaw v) s :=
      spelled hcr ⟨(fieldOpc_toNat w).trans hopc, fieldCh_of_chRsv hcr, fieldOpd_toInt w⟩
    have ready (hl : s.life = .ready) : exec (.setPrescaleRaw v) s = setPrescaleRaw v s :=
      exec_setPrescaleRaw_of_ready hl
    refine ⟨fun hcr => answer (execute_of_chRsv_ne_zero (by omega) (by omega) hcr s), fun hcr hl => answer ?_,
      fun hcr hl hs => answer ?_, fun hcr hl hs hv => answer ?_, fun hcr hl hs h3 h255 => ?_⟩
    · rw [run hcr, exec_setter_of_not_ready Instr.noConfusion Instr.noConfusion hl]
    · rw [run hcr, ready hl, setPrescaleRaw_of_not_asleep hs]
    · rw [run hcr, ready hl, setPrescaleRaw_of_outOfRange hs hv]
    · exact SetsPrescale.record (.inr ⟨v, rfl⟩) ((run hcr).symm.trans h) (ready hl) hs h3 h255
  · have run (hcr : chRsv = 0) : execute w s = exec (.setFreq opd) s :=
      spelled hcr ⟨(fieldOpc_toNat w).trans hopc, fieldCh_of_chRsv hcr, fieldOpd_toNat w⟩
    have ready (hl : s.life = .ready) (hne : opd ≠ 0) : exec (.setFreq opd) s = setPrescaleRaw p s :=
      (exec_setFreq_of_ready hl).trans (setFreq_of_ne_zero hne)
    refine ⟨fun hcr => answer (execute_of_chRsv_ne_zero (by omega) (by omega) hcr s), fun hcr hl => answer ?_,
      fun hcr hl h0 => answer ?_, fun hcr hl hne hs => answer ?_, fun hcr hl hne hs hp => answer ?_,
      fun hcr hl hne hs h3 h255 => ?_⟩
    · rw [run hcr, exec_setter_of_not_ready Instr.noConfusion Instr.noConfusion hl]
    · rw [run hcr, exec_setFreq_of_ready hl, h0, setFreq_zero]
    · rw [run hcr, ready hl hne, setPrescaleRaw_of_not_asleep hs]
    · rw [run hcr, ready hl hne, setPrescaleRaw_of_outOfRange hs hp]
    · exact SetsPrescale.record (.inl ⟨opd, rfl⟩) ((run hcr).symm.trans h) (ready hl hne) hs h3 h255
  · have run (hcr : chRsv = 0) (hopd : opd < 2) : execute w s = exec (.setSleep ((fieldOpd w).getLsbD 0)) s :=
      spelled hcr ⟨(fieldOpc_toNat w).trans hopc, fieldCh_of_chRsv hcr, fieldOpd_of_lt_two hopd⟩
    refine ⟨?_, fun hcr hopd hl => answer ?_, fun hcr hopd hl => ?_⟩
    · rintro (hcr | hopd)
      · exact answer (execute_of_chRsv_ne_zero (by omega) (by omega) hcr s)
      · exact answer (execute_of_sleepBits hopc hopd s)
    · rw [run hcr hopd, exec_setter_of_not_ready Instr.noConfusion Instr.noConfusion hl]
    · have hexec := (run hcr hopd).symm.trans h
      obtain ⟨x, hhist, hst, hmirror⟩ := setSleep_record ((exec_setSleep_of_ready hl).symm.trans hexec)
      exact ⟨x, hhist, hst, hmirror, exec_setter_life Instr.noConfusion Instr.noConfusion hexec,
        exec_setter_pin Instr.noConfusion hexec⟩

/-! ### The frames (R37, R122, R129, R138) -/

theorem byteAt_of_one_byte (a : Addr7) (b : Byte) (o : TxnOutcome) {reg : Byte} (hne : reg ≠ r) :
    byteAt ⟨a, r, [b], o⟩ reg = none := by
  have hne : reg.toNat ≠ r.toNat := mt BitVec.eq_of_toNat_eq hne
  apply byteAt_outside
  simp only [List.length_singleton]
  omega

/-- A command whose one write is a byte to register `r` leaves the intended image alone elsewhere. -/
theorem exec_image_of_one_byte (hinit : i ≠ .init) (hone : ∀ a r' p, WriteOf s a r' p i → r' = r ∧ ∃ b, p = [b])
    (h : exec i s = .next t) (dev : Addr7) {reg : Byte} (hne : reg ≠ r) :
    image dev t.hist reg = image dev s.hist reg := by
  rcases exec_setter_hist_cases hinit h with ⟨-, hhist⟩ | ⟨a, r', p, o, hw, hhist, -⟩
  · rw [hhist]
  · obtain ⟨rfl, b, rfl⟩ := hone a r' p hw
    rw [hhist]
    exact image_append_uncovered _ (List.forall_mem_singleton.mpr (byteAt_of_one_byte a b o hne))

theorem SetsPrescale.writeOf (hi : SetsPrescale i) (hw : WriteOf s a r p i) : r = regPrescale ∧ ∃ b, p = [b] := by
  rcases hi with ⟨hz, rfl⟩ | ⟨v, rfl⟩
  · obtain ⟨-, -, hr, -, -, hp⟩ := hw
    exact ⟨hr, _, hp⟩
  · obtain ⟨-, -, hr, -, -, hp⟩ := hw
    exact ⟨hr, _, hp⟩

theorem WritesMode.ne_init (hi : WritesMode i) : i ≠ .init := by
  rcases hi with ⟨sl, rfl⟩ | rfl <;> exact Instr.noConfusion

theorem WritesMode.writeOf (hi : WritesMode i) (hw : WriteOf s a r p i) : r = regMode1 ∧ ∃ b, p = [b] := by
  rcases hi with ⟨sl, rfl⟩ | rfl
  · obtain ⟨-, hr, hp⟩ := hw
    exact ⟨hr, _, hp⟩
  · obtain ⟨-, hr, hp⟩ := hw
    exact ⟨hr, _, hp⟩

/-- Settles O30: the frame shared by the setters, and the one record is a byte at PRESCALE. -/
theorem prescaleCommandsFrame : Obligations.PrescaleCommandsFrame := by
  intro i hprescale s t h
  have hi : SetsPrescale i := hprescale
  obtain ⟨hcfg, hinbox, hera⟩ := exec_sameSetting h
  exact ⟨exec_setter_life hi.ne_init hi.ne_shutdown h, exec_sleeping hi.ne_init hi.ne_shutdown hi.ne_setSleep h,
    exec_setter_pin hi.ne_init h, hcfg, hinbox, hera, exec_setter_hist hi.ne_init h,
    fun _ => exec_image_of_one_byte hi.ne_init (fun _ _ _ => hi.writeOf) h _⟩

/-- Settles O31: the frame of every command but INIT, and the one record is a byte at MODE1. -/
theorem modeCommandsFrame : Obligations.ModeCommandsFrame := by
  intro i hmode s t h
  have hi : WritesMode i := hmode
  obtain ⟨hcfg, hinbox, hera⟩ := exec_sameSetting h
  exact ⟨exec_setter_pin hi.ne_init h, hcfg, hinbox, hera, fun hshut => exec_setter_life hi.ne_init hshut h,
    exec_setter_hist hi.ne_init h, fun _ => exec_image_of_one_byte hi.ne_init (fun _ _ _ => hi.writeOf) h _⟩

end Sys2Proof.Machine

/-! RESET_ALL's frame, and SHUTDOWN as the end of the lifecycle (spec 44_reset_shutdown R134, R140). -/

namespace Sys2Proof.Machine

variable {s t : State} {i : Instr} {w : CmdWord}

/-! ### The frame of RESET_ALL (R37, R134) -/

/-- The broadcast reset carries no payload, so it covers no register. -/
theorem WriteOf.byteAt_resetAll {a : Addr7} {r : Byte} {p : List Byte} (h : WriteOf s a r p .resetAll)
    (o : TxnOutcome) (reg : Byte) : byteAt ⟨a, r, p, o⟩ reg = none := by
  obtain ⟨rfl, rfl, rfl⟩ := h
  apply byteAt_outside
  simp only [List.length_nil]
  omega

theorem exec_resetAll_image (h : exec .resetAll s = .next t) (dev : Addr7) (reg : Byte) :
    image dev t.hist reg = image dev s.hist reg := by
  rcases exec_setter_hist_cases Instr.noConfusion h with ⟨-, hhist⟩ | ⟨a, r, p, o, hw, hhist, -⟩
  · rw [hhist]
  · rw [hhist]
    exact image_append_uncovered _ (List.forall_mem_singleton.mpr (hw.byteAt_resetAll o reg))

/-- An OK broadcast reset leaves every register unknown, whatever was known of it before. -/
theorem learnRegister_broadcastReset {dev : Addr7} {reg : Byte} {on : Bool} {k : RegKnowledge} {x : Txn}
    (h : isBroadcastReset x = true) : learnRegister dev reg on k x = .unknown := if_pos h

theorem chipRegister_of_ok_resetAll (h : exec .resetAll s = .next t) (hst : t.status = 0x00#8) (dev : Addr7)
    (reg : Byte) : chipRegister dev t.hist reg = .unknown := by
  obtain ⟨a, r, p, hw, hhist⟩ := exec_setter_hist_of_ok Instr.noConfusion h hst
  rw [hhist, chipRegister_append_one, learnRegister_broadcastReset hw.isBroadcastReset]

/-- Settles O34: the frame shared by the setters, and the one record is a broadcast reset, which carries no byte. -/
theorem resetAllFrame : Obligations.ResetAllFrame := by
  intro s t h
  obtain ⟨hcfg, hinbox, hera⟩ := exec_sameSetting h
  exact ⟨exec_setter_life Instr.noConfusion Instr.noConfusion h,
    exec_sleeping Instr.noConfusion Instr.noConfusion (fun _ => Instr.noConfusion) h,
    exec_setter_pin Instr.noConfusion h, hcfg, hinbox, hera, exec_setter_hist Instr.noConfusion h,
    exec_resetAll_image h _, fun hst => chipRegister_of_ok_resetAll h hst _⟩

/-! ### After SHUTDOWN (R140, R154) -/

/-- SHUTDOWN is the one lifecycle state whose column of R154 accepts no command at all. -/
theorem accepted_in_shutdown (i : Instr) : accepted i .shutdown = false := by
  cases i <;> rfl

theorem execute_legal_of_shutdown (hl : s.life = .shutdown) (hw : decode w = .ok i) :
    execute w s = .next { s with status := 0x06#8 } := by
  rw [execute_of_decode hw, exec_of_not_accepted (hl ▸ accepted_in_shutdown i)]

theorem execute_keeps_shutdown (hl : s.life = .shutdown) (h : execute w s = .next t) : t.life = .shutdown := by
  cases hw : decode w with
  | ok i =>
    obtain rfl := Host.Outcome.next.inj ((execute_legal_of_shutdown hl hw).symm.trans h)
    exact hl
  | error e =>
    obtain rfl := Host.Outcome.next.inj ((execute_of_illegal hw s).symm.trans h)
    exact hl

/-- Waiting and commands stay in SHUTDOWN, so a step that leaves it was the host's reset. -/
theorem step_leaves_shutdown_by_reset (hl : s.life = .shutdown) (h : step s = .next t) (ht : t.life ≠ .shutdown) :
    ∃ rest : List HostEvent, s.inbox = .reset :: rest := by
  match hin : s.inbox with
  | [] =>
    obtain rfl := Host.Outcome.next.inj ((step_of_idle hin).symm.trans h)
    exact absurd hl ht
  | .command w :: rest =>
    rw [step_of_command hin] at h
    exact absurd (execute_keeps_shutdown (s := { s with inbox := rest }) hl h) ht
  | .reset :: rest => exact ⟨rest, rfl⟩

/-- SHUTDOWN from READY on an all-ACK bus, as the state it leaves (R137). -/
theorem execute_shutdownWord_of_acked (hl : s.life = .ready)
    (h : BusEnding.acked.Happens s.cfg.devAddr.addr 0x00#8 [s.cfg.mode1Sleep] s) :
    execute shutdownWord s = .next { BusEnding.acked.after s.cfg.devAddr.addr 0x00#8 [s.cfg.mode1Sleep] s with
      life := .shutdown, sleeping := .asleep, status := 0x00#8 } := by
  obtain ⟨hok, -⟩ := shutdownRule s (.inl hl) .acked h
  exact (execute_of_decode (decodeOfEncode .shutdown rfl) s).trans (hok rfl)

/-- Settles O36: no command is accepted in SHUTDOWN, and the worked example reaches it by the rule of SHUTDOWN. -/
theorem shutdownIsFinal : Obligations.ShutdownIsFinal := by
  refine ⟨fun s hl => ⟨?_, ?_, fun _ => step_leaves_shutdown_by_reset hl⟩, fun s hl _ hacked => ?_⟩
  · rintro w ⟨i, hw⟩
    exact execute_legal_of_shutdown hl hw
  · rintro w ⟨e, hw⟩
    exact execute_of_illegal hw s
  · exact ⟨_, execute_shutdownWord_of_acked hl hacked, rfl, rfl, rfl, rfl,
      execute_legal_of_shutdown rfl (decodeOfEncode (.setDuty 1 0) rfl)⟩

end Sys2Proof.Machine

/-! The host's servo layer: quantizing an angle's duty keeps its on-cycle count, and the source's angles (spec
45_host_servo R142 to R149). -/

namespace Sys2Proof.Machine

/-! ### Rounding to the only near integer (R13) -/

/-- Within less than one half of an integer, either tie rule rounds to it. -/
theorem roundDiv_eq_of_near (tie : Tie) {num n : Int} {den : Nat} (hhi : 2 * (num - n * den) < den)
    (hlo : -(den : Int) < 2 * (num - n * den)) : roundDiv tie num den = n := by
  have hpos : (0 : Int) < den := by omega
  obtain ⟨hle, hge, -⟩ := roundingIsToNearest tie num den (by omega)
  have h1 : (n - roundDiv tie num den) * den < 1 * den := by rw [sub_mul]; omega
  have h2 : (roundDiv tie num den - n) * den < 1 * den := by rw [sub_mul]; omega
  have h1' := lt_of_mul_lt_mul_right h1 hpos.le
  have h2' := lt_of_mul_lt_mul_right h2 hpos.le
  omega

/-- `roundingIsToNearest` of a rational, over any denominator and not only its own. -/
theorem roundNeRat_near {x : Rat} {num den : Int} (hden : 0 < den) (hx : x * den = num) :
    2 * (num - roundNeRat x * den) ≤ den ∧ -den ≤ 2 * (num - roundNeRat x * den) := by
  obtain ⟨hle, hge, -⟩ := roundingIsToNearest .halfEven x.num x.den x.den_pos
  have hxden : x.num * den = num * x.den := by
    have : (x.num : Rat) * den = num * x.den := by rw [← hx, ← Rat.mul_den_eq_num]; ring
    exact_mod_cast this
  have hpos : (0 : Int) < x.den := by exact_mod_cast x.den_pos
  have hscale : 2 * (num - roundNeRat x * den) * x.den = 2 * (x.num - roundNeRat x * x.den) * den := by
    linear_combination -2 * hxden
  constructor
  · refine le_of_mul_le_mul_right ?_ hpos
    rw [hscale, mul_comm den]
    exact mul_le_mul_of_nonneg_right hle hden.le
  · refine le_of_mul_le_mul_right ?_ hpos
    rw [hscale, neg_mul, mul_comm den, ← neg_mul]
    exact mul_le_mul_of_nonneg_right hge hden.le

@[simp] theorem roundNeRat_intCast (n : Int) : roundNeRat n = n :=
  roundDiv_eq_of_near .halfEven (by simp) (by simp)

/-! ### Quantization (R143, R145) -/

theorem servoDuty_mul_1800 (angle : Rat) : servoDuty angle * 1800 = angle + 45 := by
  rw [servoDuty]
  ring

theorem clampInt32_of_inRange {x : Int} (hlo : -2 ^ 31 ≤ x) (hhi : x < 2 ^ 31) : clampInt32 x = x := by
  rw [clampInt32]
  omega

/-- The on-cycles are 512 (a + 45) / 225: the odd denominator keeps them 1/450 from a tie, more than the quantization moves
them. -/
theorem dutyOperand_near_onCycles {a : Int} (hlo : -230400 ≤ a + 45) (hhi : a + 45 < 230400) :
    2 * (dutyOperand (servoDuty a) - roundNeRat (servoDuty a * 4096) * 4096) < 4096 ∧
    -4096 < 2 * (dutyOperand (servoDuty a) - roundNeRat (servoDuty a * 4096) * 4096) := by
  have hduty := servoDuty_mul_1800 a
  have hn := roundNeRat_near (x := servoDuty a * 4096) (num := 512 * (a + 45)) (den := 225) (by decide) (by
    push_cast
    linear_combination (512 : Rat) * hduty)
  have hq := roundNeRat_near (x := servoDuty a * 16777216) (num := 2097152 * (a + 45)) (den := 225) (by decide) (by
    push_cast
    linear_combination (2097152 : Rat) * hduty)
  rw [dutyOperand, clampInt32_of_inRange (by omega) (by omega)]
  omega

/-- Settles O54: the quantized operand is less than half a cycle from the count, so it rounds to it and is no tie. -/
theorem integerAnglesQuantizeExactly : Obligations.IntegerAnglesQuantizeExactly := by
  intro tie a hlo hhi
  obtain ⟨hlt, hgt⟩ := dutyOperand_near_onCycles hlo hhi
  exact ⟨roundDiv_eq_of_near tie hlt hgt, by omega⟩

/-! ### The angles of the percents (R142, R144, R149) -/

/-- Where the share of the range is an integer, R144 rounds nothing away. -/
theorem percentAngle_of_int {c : ServoConfig} {fraction : Rat} {m : Int} (h : (1 - fraction) * c.angleRange = m) :
    percentAngle c fraction = m + c.minAngle := by
  rw [percentAngle, h, roundNeRat_intCast]

/-- An integer margin makes the range even, so its half is an integer too. -/
theorem angleRange_intCast (ch : Nat) (b : Int) : ServoConfig.angleRange ⟨ch, b⟩ = 2 * ((90 - b : Int) : Rat) := by
  rw [ServoConfig.angleRange, ServoConfig.maxAngle, ServoConfig.minAngle]
  push_cast
  ring

theorem percentAngle_zero (ch : Nat) (b : Int) : percentAngle ⟨ch, b⟩ 0 = ServoConfig.maxAngle ⟨ch, b⟩ := by
  rw [percentAngle_of_int (m := 2 * (90 - b)) (by rw [angleRange_intCast]; push_cast; ring), ServoConfig.minAngle,
    ServoConfig.maxAngle]
  push_cast
  ring

theorem percentAngle_one (c : ServoConfig) : percentAngle c 1 = c.minAngle := by
  rw [percentAngle_of_int (m := 0) (by simp), Int.cast_zero, zero_add]

/-- The middle is 90 degrees whatever the margin. -/
theorem percentAngle_half (ch : Nat) (b : Int) : percentAngle ⟨ch, b⟩ (1 / 2) = 90 := by
  rw [percentAngle_of_int (m := 90 - b) (by rw [angleRange_intCast]; ring), ServoConfig.minAngle]
  push_cast
  ring

theorem middleAngle_intCast (ch : Nat) (b : Int) :
    ServoConfig.minAngle ⟨ch, b⟩ + ServoConfig.angleRange ⟨ch, b⟩ / 2 = ((90 : Int) : Rat) := by
  rw [angleRange_intCast, ServoConfig.minAngle]
  push_cast
  ring

/-- Settles O55: the percents for every integer margin; the reference deployment is the margin 20. -/
theorem servoEndPoints : Obligations.ServoEndPoints := by
  have hmax : ServoConfig.reference.maxAngle = 160 := by
    rw [ServoConfig.maxAngle, ServoConfig.reference]
    norm_num
  refine ⟨fun ch b => ⟨percentAngle_zero ch b, percentAngle_one _, ?_⟩, rfl, hmax, (percentAngle_zero 1 20).trans hmax,
    percentAngle_one _, by norm_num [servoDuty], by norm_num [servoDuty]⟩
  rw [percentAngle_half, middleAngle_intCast, roundNeRat_intCast]
  rfl

end Sys2Proof.Machine

/-! Status codes: which ones a command can return and what each of them says, and that none depends on the one before
(spec 60_exceptions R151 to R155, R168). -/

namespace Sys2Proof.Machine

variable {i : Instr} {s t : State} {a : Addr7} {ws : List (Byte × List Byte)} {w : CmdWord}

/-- A word that finishes was a command that finished, or illegal (R66, R67). -/
theorem execute_next_cases (h : execute w s = .next t) :
    (∃ i, decode w = .ok i ∧ exec i s = .next t) ∨ t = { s with status := 0x05#8 } := by
  cases hd : decode w with
  | ok i => exact .inl ⟨i, rfl, (execute_of_decode hd s).symm.trans h⟩
  | error e => exact .inr (Host.Outcome.next.inj (h.symm.trans (execute_of_illegal hd s)))

/-! ### OK (R151) -/

theorem WritesOf.ne_nil (h : WritesOf s a ws i) : ws ≠ [] := by
  rcases h with ⟨-, -, rfl⟩ | ⟨r, p, -, rfl⟩ <;> exact List.cons_ne_nil _ _

theorem exec_new_records_ok (h : exec i s = .next t) :
    ∃ new : List Txn, t.hist = s.hist ++ new ∧ (t.status = 0x00#8 → new ≠ [] ∧ ∀ x ∈ new, x.outcome = .ok) := by
  rcases exec_hist_cases h with ⟨hc, hhist⟩ | ⟨-, a, ws, hws, hhist⟩ | ⟨hst, a, ws, j, w, o, -, -, -, hhist⟩
  · exact ⟨[], by simp [hhist], fun hok => absurd hok hc.ne_ok⟩
  · exact ⟨_, hhist, fun _ => ⟨mt List.map_eq_nil_iff.mp hws.ne_nil, forall_okRecord_outcome a ws⟩⟩
  · rw [List.append_assoc] at hhist
    exact ⟨_, hhist, fun hok => by simp [hst] at hok⟩

/-- Settles O39: an OK comes of writes that were all ACKed, and an illegal word records nothing. -/
theorem okMeansEveryTransactionOk : Obligations.OkMeansEveryTransactionOk := by
  intro s t w h
  rcases execute_next_cases h with ⟨i, -, hexec⟩ | rfl
  · exact ⟨exec_status_le hexec, exec_new_records_ok hexec⟩
  · exact ⟨(by decide : (0x05#8).toNat ≤ 0x06), [], (List.append_nil _).symm,
      fun hok : 0x05#8 = 0x00#8 => absurd hok (by decide)⟩

/-! ### Failed checks and BUS_ERROR (R155) -/

theorem exec_of_not_ok_not_busError (h : exec i s = .next t) (hok : t.status ≠ 0x00#8) (hbus : t.status ≠ 0x04#8) :
    t = { s with status := t.status } := by
  rcases exec_next_ends h with ⟨c, -, rfl⟩ | ⟨-, a, ws, u, -, -, rfl⟩ | ⟨-, a, ws, e, u, -, -, -, rfl⟩
  · rfl
  · exact absurd State.succeed_status hok
  · exact absurd State.busError_status hbus

theorem exec_busError_hist (h : exec i s = .next t) (hst : t.status = 0x04#8) :
    ∃ (done : List Txn) (last : Txn), t.hist = s.hist ++ done ++ [last] ∧ (∀ x ∈ done, x.outcome = .ok) ∧
      last.outcome ≠ .ok := by
  rcases exec_hist_cases h with ⟨hc, -⟩ | ⟨hok, -⟩ | ⟨-, a, ws, j, w, o, -, -, ho, hhist⟩
  · exact absurd hst hc.ne_busError
  · simp [hok] at hst
  · exact ⟨_, _, hhist, forall_okRecord_outcome a _, ho⟩

/-- A BUS_ERROR is the end `State.busError` of a state that only the bus has moved. -/
theorem exec_busError_end (h : exec i s = .next t) (hst : t.status = 0x04#8) :
    ∃ u, OnlyBus s u ∧ t = u.busError i := by
  rcases exec_next_ends h with ⟨c, hc, rfl⟩ | ⟨-, a, ws, u, -, -, rfl⟩ | ⟨-, a, ws, e, u, -, hu, -, rfl⟩
  · exact absurd hst hc.ne_busError
  · simp at hst
  · exact ⟨u, hu.onlyBus, rfl⟩

theorem State.busError_life :
    (s.busError i).life = if i = .init then .failed else if i = .shutdown then .shutdown else s.life := rfl

/-- Settles O38: only OK and BUS_ERROR write beside `status`, and a BUS_ERROR is the FAIL of the last record. -/
theorem failuresLeaveNothingHalfDone : Obligations.FailuresLeaveNothingHalfDone := by
  intro s t w h
  obtain ⟨hcfg, hinbox, hera⟩ := execute_sameSetting h
  rcases execute_next_cases h with ⟨i, hd, hexec⟩ | rfl
  · refine ⟨fun hcheck => exec_of_not_ok_not_busError hexec ?_ ?_, fun hst => ?_⟩
    · intro hst
      simp [hst] at hcheck
    · intro hst
      simp [hst] at hcheck
    · obtain ⟨u, hu, rfl⟩ := exec_busError_end hexec hst
      refine ⟨exec_busError_hist hexec hst, hu.sleeping, hu.pin, hcfg, hinbox, hera, ?_⟩
      simp [State.busError_life, hd, hu.life]
  · exact ⟨fun _ => rfl, fun hst : 0x05#8 = 0x04#8 => absurd hst (by decide)⟩

/-! ### The code that is written, and its independence of the one before (R153, R168) -/

/-- What an accepted command runs: its own rule. -/
def ruleOf : Instr → State → StepResult
  | .init             => fun s => initSequence (initWrites s.cfg) s
  | .setDuty ch d     => setDuty ch d
  | .setDutyRaw ch n  => setDutyRaw ch n
  | .setFreq hz       => setFreq hz
  | .setPrescaleRaw v => setPrescaleRaw v
  | .setSleep sl      => setSleep sl
  | .resetAll         => resetAll
  | .shutdown         => shutdown

theorem exec_eq_ifAccepted (i : Instr) : exec i = ifAccepted i (ruleOf i) := by
  cases i <;> rfl

/-- The codes of a command that goes straight to its writes. -/
def writeCodes : List StatusCode := [.ok, .busError]

/-- The codes of an accepted duty command. -/
def dutyCodes : List StatusCode := [.ok, .busError, .outOfRange, .invalidChannel]

/-- The codes of an accepted prescale command. -/
def prescaleCodes : List StatusCode := [.ok, .busError, .outOfRange, .notSleeping]

/-- The codes an accepted command can return: its row of R153 without BAD_STATE. -/
def codesOf : Instr → List StatusCode
  | .init             => writeCodes
  | .setDuty _ _      => dutyCodes
  | .setDutyRaw _ _   => dutyCodes
  | .setFreq _        => prescaleCodes
  | .setPrescaleRaw _ => prescaleCodes
  | .setSleep _       => writeCodes
  | .resetAll         => writeCodes
  | .shutdown         => writeCodes

/-- When `run` finishes, it has overwritten the status with one of the codes, whatever it held before. -/
def Overwrites (codes : List StatusCode) (run : State → StepResult) : Prop :=
  ∀ s t, run s = .next t → (∃ c ∈ codes, t.status = c.code) ∧ ∀ v, run { s with status := v } = .next t

section
variable {codes codes' : List StatusCode} {run yes no onOk onFail : State → StepResult}

theorem Overwrites.mono (h : Overwrites codes run) (hsub : codes ⊆ codes') : Overwrites codes' run := by
  intro s t hrun
  obtain ⟨⟨c, hc, hst⟩, hsame⟩ := h s t hrun
  exact ⟨⟨c, hsub hc, hst⟩, hsame⟩

/-- A fixed change of the state, then `finish`. -/
theorem finish_overwrites {f : State → State} {c : StatusCode} (hc : c ∈ codes)
    (hf : ∀ s v, f { s with status := v } = { f s with status := v }) : Overwrites codes (fun s => finish c (f s)) := by
  intro s t h
  obtain rfl := Host.Outcome.next.inj h
  exact ⟨⟨c, hc, rfl⟩, fun v => (congrArg (finish c) (hf s v)).trans rfl⟩

theorem raise_overwrites {c : StatusCode} (hc : c ∈ codes) : Overwrites codes (raise c) :=
  finish_overwrites (f := id) hc fun _ _ => rfl

/-- A choice by a condition that does not look at the status. -/
theorem ite_overwrites {c : State → Prop} [DecidablePred c] (hc : ∀ s v, c { s with status := v } ↔ c s)
    (hyes : Overwrites codes yes) (hno : Overwrites codes no) :
    Overwrites codes (fun s => if c s then yes s else no s) := by
  intro s t h
  by_cases hcs : c s
  · simpa only [hc, if_pos hcs] using hyes s t (by simpa only [if_pos hcs] using h)
  · simpa only [hc, if_neg hcs] using hno s t (by simpa only [if_neg hcs] using h)

/-- The bus's answers depend on the history and the era. -/
theorem busWriteThen_overwrites (hok : Overwrites codes onOk) (hfail : Overwrites codes onFail) (a : Addr7) (r : Byte)
    (p : List Byte) : Overwrites codes (busWriteThen a r p onOk onFail) := by
  intro s t h
  have happens {e : BusEnding} (he : e.Happens a r p s) (v : BitVec 8) : e.Happens a r p { s with status := v } := by
    cases e <;> exact he
  rcases busWriteThen_cases a r p onOk onFail s with ⟨he, heq⟩ | ⟨e, hf, he, heq⟩ | ⟨e, -, -, heq⟩
  · obtain ⟨hcode, hsame⟩ := hok _ t (heq.symm.trans h)
    exact ⟨hcode, fun v => (busWriteThen_of_acked (happens he v)).trans (hsame v)⟩
  · obtain ⟨hcode, hsame⟩ := hfail _ t (heq.symm.trans h)
    exact ⟨hcode, fun v => (busWriteThen_of_fails (happens he v) hf).trans (hsame v)⟩
  · cases heq.symm.trans h

theorem writeAndFinish_overwrites (hok : .ok ∈ codes) (hfail : .busError ∈ codes) (a : Addr7) (r : Byte)
    (p : List Byte) : Overwrites codes (writeAndFinish a r p) :=
  busWriteThen_overwrites (finish_overwrites (f := id) hok fun _ _ => rfl) (raise_overwrites hfail) a r p

end

theorem setDutyRaw_overwrites (ch : Nat) (n : Int) : Overwrites dutyCodes (setDutyRaw ch n) :=
  ite_overwrites (fun _ _ => Iff.rfl) (raise_overwrites (by decide)) <|
    ite_overwrites (fun _ _ => Iff.rfl) (raise_overwrites (by decide)) fun s =>
      writeAndFinish_overwrites (by decide) (by decide) s.dev _ _ s

theorem setDuty_overwrites (ch : Nat) (d : Int) : Overwrites dutyCodes (setDuty ch d) :=
  ite_overwrites (fun _ _ => Iff.rfl) (raise_overwrites (by decide)) fun s =>
    setDutyRaw_overwrites ch (onCyclesOf s.cfg.dutyTie d) s

theorem setPrescaleRaw_overwrites (v : Int) : Overwrites prescaleCodes (setPrescaleRaw v) :=
  ite_overwrites (fun _ _ => Iff.rfl) (raise_overwrites (by decide)) <|
    ite_overwrites (fun _ _ => Iff.rfl) (raise_overwrites (by decide)) fun s =>
      writeAndFinish_overwrites (by decide) (by decide) s.dev _ _ s

theorem setFreq_overwrites (hz : Nat) : Overwrites prescaleCodes (setFreq hz) :=
  ite_overwrites (fun _ _ => Iff.rfl) (raise_overwrites (by decide)) (setPrescaleRaw_overwrites (prescaleOf hz))

theorem setSleep_overwrites (sl : Bool) : Overwrites writeCodes (setSleep sl) := fun s =>
  busWriteThen_overwrites (finish_overwrites (by decide) fun _ _ => rfl) (raise_overwrites (by decide)) s.dev regMode1
    [sleepByte sl s.cfg] s

theorem shutdown_overwrites : Overwrites writeCodes shutdown := fun s =>
  busWriteThen_overwrites (finish_overwrites (by decide) fun _ _ => rfl) (finish_overwrites (by decide) fun _ _ => rfl)
    s.dev regMode1 [s.cfg.mode1Sleep] s

theorem initSequence_overwrites (ws : List (Byte × List Byte)) : Overwrites writeCodes (initSequence ws) := by
  induction ws with
  | nil => exact finish_overwrites (by decide) fun _ _ => rfl
  | cons w ws ih =>
    obtain ⟨r, p⟩ := w
    exact fun s => busWriteThen_overwrites ih (finish_overwrites (by decide) fun _ _ => rfl) s.dev r p s

theorem rule_overwrites (i : Instr) : Overwrites (codesOf i) (ruleOf i) := by
  cases i with
  | init => exact fun s => initSequence_overwrites (initWrites s.cfg) s
  | setDuty ch d => exact setDuty_overwrites ch d
  | setDutyRaw ch n => exact setDutyRaw_overwrites ch n
  | setFreq hz => exact setFreq_overwrites hz
  | setPrescaleRaw v => exact setPrescaleRaw_overwrites v
  | setSleep sl => exact setSleep_overwrites sl
  | resetAll => exact writeAndFinish_overwrites (by decide) (by decide) resetAddr resetReg []
  | shutdown => exact shutdown_overwrites

theorem exec_overwrites (i : Instr) : Overwrites (.badState :: codesOf i) (exec i) := by
  rw [exec_eq_ifAccepted]
  exact ite_overwrites (fun _ _ => Iff.rfl) ((rule_overwrites i).mono (List.subset_cons_self _ _))
    (raise_overwrites List.mem_cons_self)

/-- Settles O41: a command and the answer to an illegal word alike overwrite the status. -/
theorem statusIsNotSticky : Obligations.StatusIsNotSticky := by
  intro s t w h v
  cases hd : decode w with
  | ok i =>
    rw [execute_of_decode hd] at h ⊢
    obtain ⟨-, hsame⟩ := exec_overwrites i s t h
    exact hsame v
  | error e =>
    rw [execute_of_illegal hd] at h ⊢
    exact h

/-! ### The codes of a command (R153) -/

theorem code_of_mem_write {c : StatusCode} (h : c ∈ .badState :: writeCodes) :
    c.code = 0x00#8 ∨ c.code = 0x04#8 ∨ c.code = 0x06#8 := by
  revert c
  decide

theorem code_of_mem_duty {c : StatusCode} (h : c ∈ .badState :: dutyCodes) :
    c.code ≠ 0x03#8 ∧ c.code ≠ 0x05#8 ∧ c.code.toNat ≤ 0x06 := by
  revert c
  decide

theorem code_of_mem_prescale {c : StatusCode} (h : c ∈ .badState :: prescaleCodes) :
    c.code ≠ 0x02#8 ∧ c.code ≠ 0x05#8 ∧ c.code.toNat ≤ 0x06 := by
  revert c
  decide

/-- Settles O40: BAD_STATE or a code of the command's rule. -/
theorem codesACommandCanReturn : Obligations.CodesACommandCanReturn := by
  intro i s t h
  obtain ⟨⟨c, hc, hst⟩, -⟩ := exec_overwrites i s t h
  rw [hst]
  cases i with
  | init => exact code_of_mem_write hc
  | setDuty ch d => exact code_of_mem_duty hc
  | setDutyRaw ch n => exact code_of_mem_duty hc
  | setFreq hz => exact code_of_mem_prescale hc
  | setPrescaleRaw v => exact code_of_mem_prescale hc
  | setSleep sl => exact code_of_mem_write hc
  | resetAll => exact code_of_mem_write hc
  | shutdown => exact code_of_mem_write hc

/-! ### Acceptance (R154) -/

theorem badState_not_mem_codesOf (i : Instr) : StatusCode.badState ∉ codesOf i := by
  cases i <;> simp [codesOf, writeCodes, dutyCodes, prescaleCodes]

theorem StatusCode.code_eq_badState_iff {c : StatusCode} : c.code = 0x06#8 ↔ c = .badState := by
  cases c <;> decide

theorem exec_status_of_accepted (hacc : accepted i s.life = true) (h : exec i s = .next t) : t.status ≠ 0x06#8 := by
  rw [exec_eq_ifAccepted, ifAccepted_of_accepted _ hacc] at h
  obtain ⟨⟨c, hc, hst⟩, -⟩ := rule_overwrites i s t h
  rw [hst, ne_eq, StatusCode.code_eq_badState_iff]
  rintro rfl
  exact badState_not_mem_codesOf i hc

/-- Both halves of R154, for a condition that says when the command is accepted. -/
theorem exec_acceptance {yes : Prop} (h : accepted i s.life = true ↔ yes) :
    (¬ yes → exec i s = .next { s with status := 0x06#8 }) ∧ (yes → ∀ t, exec i s = .next t → t.status ≠ 0x06#8) :=
  ⟨fun hno => exec_of_not_accepted (Bool.eq_false_iff.mpr (mt h.mp hno)),
    fun hyes _ => exec_status_of_accepted (h.mpr hyes)⟩

/-- Settles O37: the table of R154, row by row. -/
theorem lifecycleAcceptance : Obligations.LifecycleAcceptance := by
  intro i s
  have setter (hinit : i ≠ .init) (hshut : i ≠ .shutdown) := exec_acceptance (accepted_setter_iff hinit hshut s.life)
  cases i with
  | init => exact exec_acceptance (accepted_init_iff s.life)
  | shutdown => exact exec_acceptance (accepted_shutdown_iff s.life)
  | setDuty ch d => exact setter Instr.noConfusion Instr.noConfusion
  | setDutyRaw ch n => exact setter Instr.noConfusion Instr.noConfusion
  | setFreq hz => exact setter Instr.noConfusion Instr.noConfusion
  | setPrescaleRaw v => exact setter Instr.noConfusion Instr.noConfusion
  | setSleep sl => exact setter Instr.noConfusion Instr.noConfusion
  | resetAll => exact setter Instr.noConfusion Instr.noConfusion

end Sys2Proof.Machine

/-! A run that ends properly (spec 70_reset_and_hazards R175). -/

namespace Sys2Proof.Machine

variable {s t : State}

/-- A sequence of words that finishes has finished its first part, and its second part from there. -/
theorem executeAll_append_next {before after : List CmdWord} (h : executeAll (before ++ after) s = .next t) :
    ∃ u, executeAll before s = .next u ∧ executeAll after u = .next t := by
  induction before generalizing s with
  | nil => exact ⟨s, rfl, h⟩
  | cons w ws ih =>
    simp only [List.cons_append, executeAll] at h ⊢
    cases hw : execute w s with
    | next u => exact ih (by simpa only [hw] using h)
    | fault f => simp [hw] at h
    | refused r => simp [hw] at h

theorem executeAll_singleton (w : CmdWord) (s : State) : executeAll [w] s = execute w s := by
  cases hw : execute w s <;> simp [executeAll, hw]

/-- A write after which something finishes was ACKed or FAILed, and what its end ran finished. -/
theorem busWriteThen_next {a : Addr7} {r : Byte} {p : List Byte} {onOk onFail : State → StepResult}
    (h : busWriteThen a r p onOk onFail s = .next t) : ∃ u, onOk u = .next t ∨ onFail u = .next t := by
  rcases busWriteThen_cases a r p onOk onFail s with ⟨-, hend⟩ | ⟨e, -, -, hend⟩ | ⟨e, -, -, hend⟩
  · exact ⟨_, .inl (hend.symm.trans h)⟩
  · exact ⟨_, .inr (hend.symm.trans h)⟩
  · cases hend.symm.trans h

/-- R137: when SHUTDOWN's write ends, OK or FAIL, the lifecycle is over. -/
theorem shutdown_life (h : shutdown s = .next t) : t.life = .shutdown := by
  obtain ⟨u, hu | hu⟩ := busWriteThen_next h
  · obtain rfl := Host.Outcome.next.inj hu
    rfl
  · obtain rfl := Host.Outcome.next.inj hu
    rfl

/-- R137, R154: SHUTDOWN is accepted in READY and FAILED, and BAD_STATE keeps the other two lifecycle states. -/
theorem exec_shutdown_life (h : exec .shutdown s = .next t) :
    t.life = if s.life = .uninit then .uninit else .shutdown := by
  by_cases hacc : accepted .shutdown s.life = true
  · have ht : t.life = .shutdown := shutdown_life ((ifAccepted_of_accepted _ hacc).symm.trans h)
    rcases (accepted_shutdown_iff _).mp hacc with hl | hl <;> simp [ht, hl]
  · obtain rfl := Host.Outcome.next.inj ((exec_of_not_accepted (Bool.eq_false_iff.mpr hacc)).symm.trans h)
    rw [accepted_shutdown_iff] at hacc
    cases hl : s.life <;> simp [hl] at hacc ⊢

/-- Settles O49: wherever the words before it led, the last word is SHUTDOWN, and it finished. -/
theorem properEndLeavesShutdown : Obligations.ProperEndLeavesShutdown := by
  rintro ws s t ⟨⟨before, rfl, -⟩, -⟩ h
  obtain ⟨u, -, hlast⟩ := executeAll_append_next h
  rw [executeAll_singleton] at hlast
  have hexec : exec .shutdown u = .next t :=
    (execute_of_decode (decodeOfEncode .shutdown rfl) u).symm.trans hlast
  rw [exec_shutdown_life hexec]
  split_ifs
  · exact .inr rfl
  · exact .inl rfl

end Sys2Proof.Machine
